-- ==== Sys2Proof/Word.lean ====
section
/-! DEFINITION. The word types of the machine. Every value the spec treats as bits is a bit vector of the stated
width (spec/00_scope.md R12); indexes, lengths and effective addresses are natural numbers. -/

namespace Sys2Proof

/-- 8 bits: general registers, memory cells, the timer, the immediate `nn` (R21, R31, R34, R91). -/
abbrev Byte := BitVec 8

/-- 16 bits: instruction words, `PC`, `I`, call-stack entries, `info` (R24, R26, R29, R36, R90). -/
abbrev Word := BitVec 16

/-- 4 bits: the fields `x`, `y` and `n`, the key codes, the wait target (R33, R35, R91). A register index is
always in range (R21, R203). -/
abbrev Nibble := BitVec 4

/-- 12 bits: the address immediate `nnn` (R91). -/
abbrev Imm12 := BitVec 12

end Sys2Proof
end

