-- ==== Sys2Proof/Syntax.lean ====
section
/-! DEFINITION. The instructions: one constructor per row of spec/opcode_table.json (spec/30_encoding.md R97), in the
table's order. Fields that an instruction ignores are kept (R96, log entry 13), so that no bit of a word is lost. -/

namespace Sys2Proof

inductive Instr where
  /-- 00E0, `CLS` -/
  | cls
  /-- 00EE, `RET` -/
  | ret
  /-- 0nnn, `SYS nnn`; `nnn` is ignored -/
  | sys (nnn : Imm12)
  /-- 1nnn, `JP nnn` -/
  | jp (nnn : Imm12)
  /-- 2nnn, `CALL nnn` -/
  | call (nnn : Imm12)
  /-- 3xnn, `SE Vx, nn` -/
  | seImm (x : Nibble) (nn : Byte)
  /-- 4xnn, `SNE Vx, nn` -/
  | sneImm (x : Nibble) (nn : Byte)
  /-- 5xy0, `SE Vx, Vy` -/
  | seReg (x y : Nibble)
  /-- 6xnn, `LD Vx, nn` -/
  | ldImm (x : Nibble) (nn : Byte)
  /-- 7xnn, `ADD Vx, nn` -/
  | addImm (x : Nibble) (nn : Byte)
  /-- 8xy0, `LD Vx, Vy` -/
  | ldReg (x y : Nibble)
  /-- 8xy1, `OR Vx, Vy` -/
  | orReg (x y : Nibble)
  /-- 8xy2, `AND Vx, Vy` -/
  | andReg (x y : Nibble)
  /-- 8xy3, `XOR Vx, Vy` -/
  | xorReg (x y : Nibble)
  /-- 8xy4, `ADD Vx, Vy` -/
  | addReg (x y : Nibble)
  /-- 8xy5, `SUB Vx, Vy` -/
  | subReg (x y : Nibble)
  /-- 8xy6, `SHR Vx`; `y` is ignored -/
  | shr (x y : Nibble)
  /-- 8xy7, `SUBN Vx, Vy` -/
  | subnReg (x y : Nibble)
  /-- 8xyE, `SHL Vx`; `y` is ignored -/
  | shl (x y : Nibble)
  /-- 9xy0, `SNE Vx, Vy` -/
  | sneReg (x y : Nibble)
  /-- Annn, `LD I, nnn` -/
  | ldI (nnn : Imm12)
  /-- Bnnn, `JP V0, nnn` -/
  | jpV0 (nnn : Imm12)
  /-- Cxnn, `RND Vx, nn`; `nn` is ignored -/
  | rnd (x : Nibble) (nn : Byte)
  /-- Dxyn, `DRW Vx, Vy, n` -/
  | drw (x y n : Nibble)
  /-- Ex9E, `SKP Vx` -/
  | skp (x : Nibble)
  /-- ExA1, `SKNP Vx` -/
  | sknp (x : Nibble)
  /-- Fx07, `LD Vx, DT` -/
  | ldVxDt (x : Nibble)
  /-- Fx0A, `LD Vx, K` -/
  | ldVxK (x : Nibble)
  /-- Fx15, `LD DT, Vx` -/
  | ldDtVx (x : Nibble)
  /-- Fx18, `LD ST, Vx`; `x` is ignored -/
  | ldStVx (x : Nibble)
  /-- Fx1E, `ADD I, Vx` -/
  | addI (x : Nibble)
  /-- Fx29, `LD F, Vx` -/
  | ldF (x : Nibble)
  /-- Fx33, `LD B, Vx` -/
  | ldB (x : Nibble)
  /-- Fx55, `LD [I], Vx` -/
  | stRegs (x : Nibble)
  /-- Fx65, `LD Vx, [I]` -/
  | ldRegs (x : Nibble)
deriving DecidableEq, Repr

end Sys2Proof
end

