-- ==== Sys2Proof/WellFormed.lean ====
section
/-! DEFINITION. Which terms of `Instr` are instructions. The field widths are in the types; the one check left is
that the words 0x00E0 and 0x00EE are CLS and RET and never SYS (spec/30_encoding.md R95, log entry 13). -/

namespace Sys2Proof

/-- `nnn` makes a SYS word: the word is neither 0x00E0 nor 0x00EE (R95). -/
def isSysField (nnn : Imm12) : Bool := nnn != 0x0E0#12 && nnn != 0x0EE#12

/-- Every instruction term but the two SYS terms whose words mean CLS and RET is well formed. -/
def Instr.wf (i : Instr) : Bool :=
  match i with
  | .sys nnn => isSysField nnn
  | .cls | .ret | .jp _ | .call _ | .seImm _ _ | .sneImm _ _ | .seReg _ _ | .ldImm _ _ | .addImm _ _
  | .ldReg _ _ | .orReg _ _ | .andReg _ _ | .xorReg _ _ | .addReg _ _ | .subReg _ _ | .shr _ _ | .subnReg _ _
  | .shl _ _ | .sneReg _ _ | .ldI _ | .jpV0 _ | .rnd _ _ | .drw _ _ _ | .skp _ | .sknp _ | .ldVxDt _ | .ldVxK _
  | .ldDtVx _ | .ldStVx _ | .addI _ | .ldF _ | .ldB _ | .stRegs _ | .ldRegs _ => true

end Sys2Proof
end

