-- ==== Sys2Proof/Decode.lean ====
section
/-! DEFINITION. The decoder, total on every word and every byte list, rejecting by name (spec/30_encoding.md R91 to
R100); the encoder, written from the same format; and the opcode table of R97 as data, independent of both. -/

namespace Sys2Proof

/-! ### The fields of a word (R91) -/

/-- `op = w[15:12]` -/
def opField (w : Word) : Nibble := w.extractLsb' 12 4
/-- `x = w[11:8]` -/
def xField (w : Word) : Nibble := w.extractLsb' 8 4
/-- `y = w[7:4]` -/
def yField (w : Word) : Nibble := w.extractLsb' 4 4
/-- `n = w[3:0]` -/
def nField (w : Word) : Nibble := w.extractLsb' 0 4
/-- `nn = w[7:0]` -/
def nnField (w : Word) : Byte := w.extractLsb' 0 8
/-- `nnn = w[11:0]` -/
def nnnField (w : Word) : Imm12 := w.extractLsb' 0 12

/-! ### Decoding -/

/-- Why a word or a byte list is no instruction: the five groups of illegal words of R98, and a list with fewer than
two bytes. -/
inductive DecodeError where
  /-- `5xyn` with `n` not 0 (R98, R100) -/
  | illegalGroup5 (w : Word)
  /-- `8xyn` with `n` none of 0 to 7 and E (R98) -/
  | illegalGroup8 (w : Word)
  /-- `9xyn` with `n` not 0 (R98, R100) -/
  | illegalGroup9 (w : Word)
  /-- `Exnn` with `nn` neither 9E nor A1 (R98) -/
  | illegalGroupE (w : Word)
  /-- `Fxnn` with `nn` none of 07, 0A, 15, 18, 1E, 29, 33, 55, 65 (R98) -/
  | illegalGroupF (w : Word)
  /-- fewer than two bytes: no word (R90) -/
  | truncated
deriving DecidableEq, Repr

/-- Group 0 is decoded on the whole word (R95). -/
def decodeGroup0 (w : Word) : Instr :=
  if w = 0x00E0#16 then .cls else if w = 0x00EE#16 then .ret else .sys (nnnField w)

/-- Group 8 is decoded on `n` (R94). -/
def decodeGroup8 (w : Word) : Except DecodeError Instr :=
  match nField w with
  | 0x0#4 => .ok (.ldReg (xField w) (yField w))
  | 0x1#4 => .ok (.orReg (xField w) (yField w))
  | 0x2#4 => .ok (.andReg (xField w) (yField w))
  | 0x3#4 => .ok (.xorReg (xField w) (yField w))
  | 0x4#4 => .ok (.addReg (xField w) (yField w))
  | 0x5#4 => .ok (.subReg (xField w) (yField w))
  | 0x6#4 => .ok (.shr (xField w) (yField w))
  | 0x7#4 => .ok (.subnReg (xField w) (yField w))
  | 0xE#4 => .ok (.shl (xField w) (yField w))
  | _ => .error (.illegalGroup8 w)

/-- Group E is decoded on `nn` (R94). -/
def decodeGroupE (w : Word) : Except DecodeError Instr :=
  match nnField w with
  | 0x9E#8 => .ok (.skp (xField w))
  | 0xA1#8 => .ok (.sknp (xField w))
  | _ => .error (.illegalGroupE w)

/-- Group F is decoded on `nn` (R94). -/
def decodeGroupF (w : Word) : Except DecodeError Instr :=
  match nnField w with
  | 0x07#8 => .ok (.ldVxDt (xField w))
  | 0x0A#8 => .ok (.ldVxK (xField w))
  | 0x15#8 => .ok (.ldDtVx (xField w))
  | 0x18#8 => .ok (.ldStVx (xField w))
  | 0x1E#8 => .ok (.addI (xField w))
  | 0x29#8 => .ok (.ldF (xField w))
  | 0x33#8 => .ok (.ldB (xField w))
  | 0x55#8 => .ok (.stRegs (xField w))
  | 0x65#8 => .ok (.ldRegs (xField w))
  | _ => .error (.illegalGroupF w)

/-- `Decode(w)` of R94: first on `op`, then within the group. It reads nothing but the word. -/
def decodeWord (w : Word) : Except DecodeError Instr :=
  match opField w with
  | 0x0#4 => .ok (decodeGroup0 w)
  | 0x1#4 => .ok (.jp (nnnField w))
  | 0x2#4 => .ok (.call (nnnField w))
  | 0x3#4 => .ok (.seImm (xField w) (nnField w))
  | 0x4#4 => .ok (.sneImm (xField w) (nnField w))
  | 0x5#4 => if nField w = 0x0#4 then .ok (.seReg (xField w) (yField w)) else .error (.illegalGroup5 w)
  | 0x6#4 => .ok (.ldImm (xField w) (nnField w))
  | 0x7#4 => .ok (.addImm (xField w) (nnField w))
  | 0x8#4 => decodeGroup8 w
  | 0x9#4 => if nField w = 0x0#4 then .ok (.sneReg (xField w) (yField w)) else .error (.illegalGroup9 w)
  | 0xA#4 => .ok (.ldI (nnnField w))
  | 0xB#4 => .ok (.jpV0 (nnnField w))
  | 0xC#4 => .ok (.rnd (xField w) (nnField w))
  | 0xD#4 => .ok (.drw (xField w) (yField w) (nField w))
  | 0xE#4 => decodeGroupE w
  | _ => decodeGroupF w

/-- Two bytes as a big-endian word: the byte at the lower address is `w[15:8]` (R61, R90). -/
def wordOfBytes (hi lo : Byte) : Word := hi ++ lo

/-- Decode the instruction at the head of a byte list, lowest address first, and give the bytes after it (R90). -/
def decodeBytes (bytes : List Byte) : Except DecodeError (Instr × List Byte) :=
  match bytes with
  | hi :: lo :: rest =>
    match decodeWord (wordOfBytes hi lo) with
    | .ok i => .ok (i, rest)
    | .error e => .error e
  | _ => .error .truncated

/-! ### Encoding -/

/-- A word written as four nibbles, most significant first (R11, R91). -/
def wordOfNibbles (op a b c : Nibble) : Word := op ++ a ++ b ++ c
/-- A word of shape `xnn` (R91). -/
def wordOfXnn (op x : Nibble) (nn : Byte) : Word := op ++ x ++ nn
/-- A word of shape `nnn` (R91). -/
def wordOfNnn (op : Nibble) (nnn : Imm12) : Word := op ++ nnn

/-- The word of an instruction, from the patterns of R97. -/
def encode (i : Instr) : Word :=
  match i with
  | .cls => 0x00E0#16
  | .ret => 0x00EE#16
  | .sys nnn => wordOfNnn 0x0#4 nnn
  | .jp nnn => wordOfNnn 0x1#4 nnn
  | .call nnn => wordOfNnn 0x2#4 nnn
  | .seImm x nn => wordOfXnn 0x3#4 x nn
  | .sneImm x nn => wordOfXnn 0x4#4 x nn
  | .seReg x y => wordOfNibbles 0x5#4 x y 0x0#4
  | .ldImm x nn => wordOfXnn 0x6#4 x nn
  | .addImm x nn => wordOfXnn 0x7#4 x nn
  | .ldReg x y => wordOfNibbles 0x8#4 x y 0x0#4
  | .orReg x y => wordOfNibbles 0x8#4 x y 0x1#4
  | .andReg x y => wordOfNibbles 0x8#4 x y 0x2#4
  | .xorReg x y => wordOfNibbles 0x8#4 x y 0x3#4
  | .addReg x y => wordOfNibbles 0x8#4 x y 0x4#4
  | .subReg x y => wordOfNibbles 0x8#4 x y 0x5#4
  | .shr x y => wordOfNibbles 0x8#4 x y 0x6#4
  | .subnReg x y => wordOfNibbles 0x8#4 x y 0x7#4
  | .shl x y => wordOfNibbles 0x8#4 x y 0xE#4
  | .sneReg x y => wordOfNibbles 0x9#4 x y 0x0#4
  | .ldI nnn => wordOfNnn 0xA#4 nnn
  | .jpV0 nnn => wordOfNnn 0xB#4 nnn
  | .rnd x nn => wordOfXnn 0xC#4 x nn
  | .drw x y n => wordOfNibbles 0xD#4 x y n
  | .skp x => wordOfXnn 0xE#4 x 0x9E#8
  | .sknp x => wordOfXnn 0xE#4 x 0xA1#8
  | .ldVxDt x => wordOfXnn 0xF#4 x 0x07#8
  | .ldVxK x => wordOfXnn 0xF#4 x 0x0A#8
  | .ldDtVx x => wordOfXnn 0xF#4 x 0x15#8
  | .ldStVx x => wordOfXnn 0xF#4 x 0x18#8
  | .addI x => wordOfXnn 0xF#4 x 0x1E#8
  | .ldF x => wordOfXnn 0xF#4 x 0x29#8
  | .ldB x => wordOfXnn 0xF#4 x 0x33#8
  | .stRegs x => wordOfXnn 0xF#4 x 0x55#8
  | .ldRegs x => wordOfXnn 0xF#4 x 0x65#8

/-- The two bytes of a word as they lie in memory, lowest address first (R61). -/
def bytesOfWord (w : Word) : List Byte := [w.extractLsb' 8 8, w.extractLsb' 0 8]

/-- The bytes of an instruction, lowest address first. -/
def encodeBytes (i : Instr) : List Byte := bytesOfWord (encode i)

/-! ### The opcode table of R97 as data -/

/-- One row of the table of R97: its pattern, its mask and its match. -/
structure TableRow where
  pattern : String
  mask : Word
  bits : Word
deriving DecidableEq, Repr

/-- Rows 1 to 12 of R97, in the table's order: 00E0 and 00EE stand before 0nnn. -/
def tableRowsA : List TableRow := [
  ⟨"00E0", 0xFFFF, 0x00E0⟩, ⟨"00EE", 0xFFFF, 0x00EE⟩, ⟨"0nnn", 0xF000, 0x0000⟩, ⟨"1nnn", 0xF000, 0x1000⟩,
  ⟨"2nnn", 0xF000, 0x2000⟩, ⟨"3xnn", 0xF000, 0x3000⟩, ⟨"4xnn", 0xF000, 0x4000⟩, ⟨"5xy0", 0xF00F, 0x5000⟩,
  ⟨"6xnn", 0xF000, 0x6000⟩, ⟨"7xnn", 0xF000, 0x7000⟩, ⟨"8xy0", 0xF00F, 0x8000⟩, ⟨"8xy1", 0xF00F, 0x8001⟩]

/-- Rows 13 to 24 of R97. -/
def tableRowsB : List TableRow := [
  ⟨"8xy2", 0xF00F, 0x8002⟩, ⟨"8xy3", 0xF00F, 0x8003⟩, ⟨"8xy4", 0xF00F, 0x8004⟩, ⟨"8xy5", 0xF00F, 0x8005⟩,
  ⟨"8xy6", 0xF00F, 0x8006⟩, ⟨"8xy7", 0xF00F, 0x8007⟩, ⟨"8xyE", 0xF00F, 0x800E⟩, ⟨"9xy0", 0xF00F, 0x9000⟩,
  ⟨"Annn", 0xF000, 0xA000⟩, ⟨"Bnnn", 0xF000, 0xB000⟩, ⟨"Cxnn", 0xF000, 0xC000⟩, ⟨"Dxyn", 0xF000, 0xD000⟩]

/-- Rows 25 to 35 of R97. -/
def tableRowsC : List TableRow := [
  ⟨"Ex9E", 0xF0FF, 0xE09E⟩, ⟨"ExA1", 0xF0FF, 0xE0A1⟩, ⟨"Fx07", 0xF0FF, 0xF007⟩, ⟨"Fx0A", 0xF0FF, 0xF00A⟩,
  ⟨"Fx15", 0xF0FF, 0xF015⟩, ⟨"Fx18", 0xF0FF, 0xF018⟩, ⟨"Fx1E", 0xF0FF, 0xF01E⟩, ⟨"Fx29", 0xF0FF, 0xF029⟩,
  ⟨"Fx33", 0xF0FF, 0xF033⟩, ⟨"Fx55", 0xF0FF, 0xF055⟩, ⟨"Fx65", 0xF0FF, 0xF065⟩]

/-- The opcode table of R97, 35 rows. -/
def opcodeTable : List TableRow := tableRowsA ++ tableRowsB ++ tableRowsC

/-- A row matches a word when `w & mask = match` (R97). -/
def TableRow.matchesWord (r : TableRow) (w : Word) : Bool := w &&& r.mask == r.bits

/-- The instruction of R97 a term is, by its hexadecimal pattern, which R101 makes an instruction's primary name. -/
def Instr.pattern (i : Instr) : String :=
  match i with
  | .cls => "00E0"
  | .ret => "00EE"
  | .sys _ => "0nnn"
  | .jp _ => "1nnn"
  | .call _ => "2nnn"
  | .seImm _ _ => "3xnn"
  | .sneImm _ _ => "4xnn"
  | .seReg _ _ => "5xy0"
  | .ldImm _ _ => "6xnn"
  | .addImm _ _ => "7xnn"
  | .ldReg _ _ => "8xy0"
  | .orReg _ _ => "8xy1"
  | .andReg _ _ => "8xy2"
  | .xorReg _ _ => "8xy3"
  | .addReg _ _ => "8xy4"
  | .subReg _ _ => "8xy5"
  | .shr _ _ => "8xy6"
  | .subnReg _ _ => "8xy7"
  | .shl _ _ => "8xyE"
  | .sneReg _ _ => "9xy0"
  | .ldI _ => "Annn"
  | .jpV0 _ => "Bnnn"
  | .rnd _ _ => "Cxnn"
  | .drw _ _ _ => "Dxyn"
  | .skp _ => "Ex9E"
  | .sknp _ => "ExA1"
  | .ldVxDt _ => "Fx07"
  | .ldVxK _ => "Fx0A"
  | .ldDtVx _ => "Fx15"
  | .ldStVx _ => "Fx18"
  | .addI _ => "Fx1E"
  | .ldF _ => "Fx29"
  | .ldB _ => "Fx33"
  | .stRegs _ => "Fx55"
  | .ldRegs _ => "Fx65"

/-! ### The host's question -/

/-- The instruction the decoder reads from the opcode-table word `w` of `nbits` bits, laid out as memory holds it,
the more significant byte at the lower address (R61); every bit at or above `nbits` is 0. -/
def decodeTableWord (nbits w : Nat) : Option Instr :=
  match decodeBytes (bytesOfWord (BitVec.ofNat 16 (w % 2 ^ nbits))) with
  | .ok (i, _) => some i
  | .error _ => none

end Sys2Proof
end

