-- ==== Sys2Proof/Config.lean ====
section
/-! DEFINITION. What the spec leaves open as named parameters (spec/00_scope.md R7), and the one free value of the
machine (spec/45_random.md R171). The parameters' default values stand in Machine/Params.lean. -/

namespace Sys2Proof

/-- The two parameters of R7. They are fixed for a run: no step changes them. -/
structure Config where
  /-- `FONT_ROM`, the 80 bytes at addresses 0 to 79 (R66). -/
  fontRom : Vector Byte 80
  /-- `STACK_DEPTH`, the largest number of return addresses the call stack holds; `none` is unbounded (R7, R30). -/
  stackDepth : Option Nat
deriving DecidableEq, Repr

/-- The value `Rand()` returns at its `n`-th call of a run when the host's list of values is used up: a FREE VALUE,
under no law (R171). Nothing can evaluate it. Log entry 2; safe. -/
opaque Config.freeByte : Nat → Byte

end Sys2Proof
end

