-- ==== Sys2Proof/Machine/Params.lean ====
section
/-! DEFINITION. The fixed parameters of the hardware (spec/00_scope.md R6) and the spec's default values of the two
open ones (R7, spec/20_memory.md R66). -/

namespace Sys2Proof.Machine

/-- Memory has 4096 cells: addresses 0 to 4095 (R6, R60). -/
def memSize : Nat := 4096
/-- The address a program is loaded at and starts from (R6, R26, R241). -/
def loadAddress : Nat := 0x200
/-- The largest ROM image, `4096 - 0x200` (R241). -/
def maxRomSize : Nat := memSize - loadAddress

/-- The default `FONT_ROM`: the 16 digit sprites of R66, five bytes each (PRESUMED by the spec; log entry 4). -/
def defaultFontRom : Vector Byte 80 := #v[
  0xF0, 0x90, 0x90, 0x90, 0xF0,
  0x20, 0x60, 0x20, 0x20, 0x70,
  0xF0, 0x10, 0xF0, 0x80, 0xF0,
  0xF0, 0x10, 0xF0, 0x10, 0xF0,
  0x90, 0x90, 0xF0, 0x10, 0x10,
  0xF0, 0x80, 0xF0, 0x10, 0xF0,
  0xF0, 0x80, 0xF0, 0x90, 0xF0,
  0xF0, 0x10, 0x20, 0x40, 0x40,
  0xF0, 0x90, 0xF0, 0x90, 0xF0,
  0xF0, 0x90, 0xF0, 0x10, 0xF0,
  0xF0, 0x90, 0xF0, 0x90, 0x90,
  0xE0, 0x90, 0xE0, 0x90, 0xE0,
  0xF0, 0x80, 0x80, 0x80, 0xF0,
  0xE0, 0x90, 0x90, 0x90, 0xE0,
  0xF0, 0x80, 0xF0, 0x80, 0xF0,
  0xF0, 0x80, 0xF0, 0x80, 0x80]

/-- The default `STACK_DEPTH` (R7; PRESUMED by the spec; log entry 3). -/
def defaultStackDepth : Option Nat := some 16

/-- The parameters the reset state holds. -/
def defaultConfig : Config := ⟨defaultFontRom, defaultStackDepth⟩

end Sys2Proof.Machine
end

