-- ==== Sys2Proof/Machine/State.lean ====
section
/-! DEFINITION. The architectural state: the nine items of spec/10_state.md R20, the two parameters of
spec/00_scope.md R7, and the model's own three fields for what the host supplies next (log entries 1 and 2). -/

namespace Sys2Proof.Machine

/-- The fatal errors of spec/60_exceptions.md R200, each with its 16-bit `info`. A fatal error is TAKEN: the machine
goes to a next state in which `RUN` holds it (R206), so `step` never answers `.fault`; Safety.lean reads a halted
state as the fault it holds (R15, R212). Log entry 6; safe. -/
inductive Fault where
  /-- code 1, raised by decode in any `Step`: the word `w` is no instruction (R201) -/
  | illegalOpcode (w : Word)
  /-- code 2, raised by 00EE at `pc` with an empty stack (R202) -/
  | stackUnderflow (pc : Word)
  /-- code 3, raised by 2nnn at `pc` with a full stack (R202) -/
  | stackOverflow (pc : Word)
  /-- code 4, raised by the fetch of any `Step` at `pc` above 4094 (R204) -/
  | fetchRange (pc : Word)
  /-- code 5, raised by Dxyn, Fx33, Fx55 and Fx65: the first failing address, above 4095 (R204) -/
  | dataRange (address : Word)
  /-- code 6, raised by Fx33 and Fx55: the first failing address, below 80 (R204) -/
  | fontWrite (address : Word)
  /-- code 7, raised by `Reset` only: the ROM's length, saturated at 65535 (R205) -/
  | loadRange (length : Word)
deriving DecidableEq, Repr

/-- Why a step has no meaning. -/
inductive Refusal where
  /-- raised by an arm of `exec` whose instruction has no meaning yet; safe. No arm is left so. -/
  | notModelled (mnemonic : String)
deriving DecidableEq, Repr

/-- `RUN` (R35). -/
inductive RunState where
  /-- the normal fetch loop -/
  | running
  /-- entered by Fx0A, whose field `x` it keeps (R37) -/
  | waitingForKey (x : Nibble)
  /-- entered by a fatal error; only `Reset` leaves it -/
  | halted (f : Fault)
deriving DecidableEq, Repr

/-- What the host can do to the machine (spec/00_scope.md R9). -/
inductive HostEvent where
  /-- `Step`: execute one instruction -/
  | step
  /-- `KeyEvent(k)`: a key code, or none -/
  | keyEvent (k : Option Nibble)
  /-- `TimerTick`: one 16 ms tick -/
  | timerTick
  /-- `Reset(rom)`: construct the machine and load the ROM bytes -/
  | reset (rom : List Byte)
deriving DecidableEq, Repr

/-- Memory: the cells whose content differs from what an unlisted address reads as, addresses strictly rising (log
entry 8). -/
abbrev Memory := List Host.Cell

/-- `FB`: row `y`'s column `x` is bit `x` of word `y`, the pixel `FB[y*64 + x]` of R32 (log entry 9). -/
abbrev FrameBuffer := Vector (BitVec 64) 32

structure State where
  /-- `V[0]` to `V[15]`; `V[15]` is VF (R21, R22) -/
  v : Vector Byte 16
  /-- `I`, the index register (R24) -/
  i : Word
  /-- `PC` (R26) -/
  pc : Word
  /-- the call stack, newest entry first; its length is `SP` (R29) -/
  stack : List Word
  /-- `MEM` (R31) -/
  mem : Memory
  /-- `FB`, the display buffer (R32) -/
  fb : FrameBuffer
  /-- `KEY`, the input latch (R33) -/
  key : Option Nibble
  /-- `DT`, the timer (R34) -/
  dt : Byte
  /-- `RUN`, the run state (R35) -/
  run : RunState
  /-- the parameters `FONT_ROM` and `STACK_DEPTH` (R7) -/
  cfg : Config
  /-- the model's own: what the host issues next, oldest first; empty means `Step` (log entry 1) -/
  events : List HostEvent
  /-- the model's own: the values the host supplies for the next calls of `Rand()` (log entry 2) -/
  rands : List Byte
  /-- the model's own: how many times `Rand()` was called (log entry 2) -/
  draws : Nat
deriving DecidableEq, Repr

/-- The machine right after `Reset` with an empty ROM (R38, R240), with the default parameters of R7. -/
def State.reset : State where
  v := Vector.replicate 16 0#8
  i := 0#16
  pc := 0x200#16
  stack := []
  mem := []
  fb := Vector.replicate 32 0#64
  key := none
  dt := 0#8
  run := .running
  cfg := defaultConfig
  events := []
  rands := []
  draws := 0

end Sys2Proof.Machine
end

