-- ==== Sys2Proof/Machine/Ops.lean ====
section
/-! DEFINITION. The named operations over registers, memory, the call stack and the program counter, taking a fatal
error, and `Reset`, the one way out of it. -/

namespace Sys2Proof.Machine

/-! ### Registers (spec/10_state.md R21, R22) -/

/-- `V[x]` -/
def State.reg (s : State) (x : Nibble) : Byte := s.v[x.toNat]'x.isLt

/-- `V[x] <- b`. No register is hardwired (R21). -/
def State.setReg (s : State) (x : Nibble) (b : Byte) : State := { s with v := s.v.set x.toNat b x.isLt }

/-- `I <- a` -/
def State.setI (s : State) (a : Word) : State := { s with i := a }

/-- Load bytes into `V[k]`, `V[k+1]`, ... in order (the loop of spec/44_index_memory.md R165). -/
def loadRegisters (bytes : List Byte) (k : Nat) (s : State) : State :=
  match bytes with
  | [] => s
  | b :: bs => loadRegisters bs (k + 1) (s.setReg (BitVec.ofNat 4 k) b)

/-- `V[k]`, `V[k+1]`, ..., `n` registers in order (the loop of R164). -/
def readRegisters (s : State) (k n : Nat) : List Byte :=
  match n with
  | 0 => []
  | n + 1 => s.reg (BitVec.ofNat 4 k) :: readRegisters s (k + 1) n

/-! ### The program counter (R14, R26 to R28) -/

/-- `PC <- target` -/
def State.setPc (s : State) (a : Word) : State := { s with pc := a }

/-- `PC <- PC + 2`, 16 bits wrapping (R14) -/
def State.advance (s : State) : State := s.setPc (s.pc + 2#16)

/-- The skip law (spec/41_skip.md R124): `PC + 4` when the condition holds, else `PC + 2`. -/
def State.skipIf (s : State) (c : Bool) : State := if c then s.setPc (s.pc + 4#16) else s.advance

/-! ### Memory (spec/20_memory.md) -/

/-- What an address no cell lists reads as: the font in the font region, else zero, the contents after reset
(R38, R60, R240). -/
def unlisted (c : Config) (a : Nat) : Byte := if h : a < 80 then c.fontRom[a] else 0#8

/-- One byte of memory. -/
def Memory.read (c : Config) (m : Memory) (a : Nat) : Byte :=
  match m with
  | [] => unlisted c a
  | (k, b) :: rest => if k = a then b else Memory.read c rest a

/-- Store one byte, keeping the canonical form: a byte equal to what the unlisted address reads as is not listed. -/
def Memory.write (c : Config) (m : Memory) (a : Nat) (b : Byte) : Memory :=
  match m with
  | [] => if b = unlisted c a then [] else [(a, b)]
  | (k, b') :: rest =>
    if a < k then (if b = unlisted c a then (k, b') :: rest else (a, b) :: (k, b') :: rest)
    else if a = k then (if b = unlisted c a then rest else (a, b) :: rest)
    else (k, b') :: Memory.write c rest a b

/-- The canonical form: addresses strictly rising, and no cell equal to what its address reads as unlisted. -/
abbrev Memory.wf (c : Config) (m : Memory) : Prop :=
  (m.map Prod.fst).Pairwise (· < ·) ∧ ∀ cell ∈ m, cell.2 ≠ unlisted c cell.1

/-- `MEM[a]`, with no check. -/
def State.readByte (s : State) (a : Nat) : Byte := Memory.read s.cfg s.mem a

/-- `MEM[a] <- b`, with no check. -/
def State.writeByte (s : State) (a : Nat) (b : Byte) : State := { s with mem := Memory.write s.cfg s.mem a b }

/-- Bytes `a`, `a+1`, ..., `n` of them. -/
def readBytes (s : State) (a n : Nat) : List Byte :=
  match n with
  | 0 => []
  | n + 1 => s.readByte a :: readBytes s (a + 1) n

/-- Store bytes at `a`, `a+1`, ... in order. -/
def writeBytes (bytes : List Byte) (a : Nat) (s : State) : State :=
  match bytes with
  | [] => s
  | b :: bs => writeBytes bs (a + 1) (s.writeByte a b)

/-- The checks of `MemRead(addr, 1)` (R63). -/
def checkRead (a : Nat) : Except Fault Unit :=
  if 4095 < a then .error (.dataRange (BitVec.ofNat 16 a)) else .ok ()

/-- The checks of `MemWrite(addr, 1, v)` (R63, R64). -/
def checkWrite (a : Nat) : Except Fault Unit :=
  if 4095 < a then .error (.dataRange (BitVec.ofNat 16 a))
  else if a < 80 then .error (.fontWrite (BitVec.ofNat 16 a))
  else .ok ()

/-- Check every address of a range in ascending order; the first that fails is reported (R65). -/
def checkRange (check : Nat → Except Fault Unit) (a n : Nat) : Except Fault Unit :=
  match n with
  | 0 => .ok ()
  | n + 1 =>
    match check a with
    | .error f => .error f
    | .ok _ => checkRange check (a + 1) n

/-- `MemRead(addr, 2)`, the fetch: big-endian, both bytes in memory, the address unbounded (R61, R63). -/
def fetchWord (s : State) : Except Fault Word :=
  if 4095 < s.pc.toNat + 1 then .error (.fetchRange s.pc)
  else .ok (wordOfBytes (s.readByte s.pc.toNat) (s.readByte (s.pc.toNat + 1)))

/-! ### The call stack (spec/10_state.md R29, R30) -/

/-- `SP` -/
def State.sp (s : State) : Nat := s.stack.length

/-- `STACK[k]` for `k` from 0, the oldest, to `SP - 1`, the newest (R29). -/
def State.stackEntry (s : State) (k : Nat) : Option Word := s.stack.reverse[k]?

/-- `SP = STACK_DEPTH`; never, with `STACK_DEPTH` unbounded (R30). -/
def State.stackFull (s : State) : Bool :=
  match s.cfg.stackDepth with
  | none => false
  | some d => s.sp == d

/-- Push (R29). -/
def State.push (s : State) (a : Word) : State := { s with stack := a :: s.stack }

/-! ### The other registers -/

/-- `DT <- b` (R34) -/
def State.setDt (s : State) (b : Byte) : State := { s with dt := b }
/-- `KEY <- k` (R33) -/
def State.setKey (s : State) (k : Option Nibble) : State := { s with key := k }
/-- `RUN <- r` (R35) -/
def State.setRun (s : State) (r : RunState) : State := { s with run := r }
/-- `FB <- f` (R32) -/
def State.setFb (s : State) (f : FrameBuffer) : State := { s with fb := f }
/-- The host's remaining events (log entry 1). -/
def State.setEvents (s : State) (es : List HostEvent) : State := { s with events := es }

/-! ### Rand() (spec/45_random.md R171) -/

/-- The value `Rand()` returns now: the host's next supplied value, or a free value (log entry 2). -/
def State.rand (s : State) : Byte :=
  match s.rands with
  | r :: _ => r
  | [] => Config.freeByte s.draws

/-- The state after one call of `Rand()`. -/
def State.drawn (s : State) : State := { s with rands := s.rands.tail, draws := s.draws + 1 }

/-! ### Taking a fatal error, and Reset (spec/60_exceptions.md R206 to R209, spec/70_reset_and_hazards.md) -/

/-- The cause code of R200. -/
def Fault.code (f : Fault) : Nat :=
  match f with
  | .illegalOpcode _ => 1
  | .stackUnderflow _ => 2
  | .stackOverflow _ => 3
  | .fetchRange _ => 4
  | .dataRange _ => 5
  | .fontWrite _ => 6
  | .loadRange _ => 7

/-- The `info` of R200. -/
def Fault.info (f : Fault) : Word :=
  match f with
  | .illegalOpcode w => w
  | .stackUnderflow pc => pc
  | .stackOverflow pc => pc
  | .fetchRange pc => pc
  | .dataRange a => a
  | .fontWrite a => a
  | .loadRange n => n

/-- `raise Fatal(cause, info)`: exactly `RUN <- Halted(cause, info)`, every other piece of state as before the step
(R206, R207). -/
def raiseFatal (f : Fault) (s : State) : Host.Outcome State Fault Refusal := .next (s.setRun (.halted f))

/-- Go on to `t` if the check passed, else raise its fatal error in `s`, the state before the instruction (R65). -/
def guarded (check : Except Fault Unit) (s t : State) : Host.Outcome State Fault Refusal :=
  match check with
  | .error f => raiseFatal f s
  | .ok _ => .next t

/-- The cells of bytes placed at `a`, `a+1`, ..., in canonical form. -/
def placeBytes (c : Config) (bytes : List Byte) (a : Nat) : Memory :=
  match bytes with
  | [] => []
  | b :: bs => if b = unlisted c a then placeBytes c bs (a + 1) else (a, b) :: placeBytes c bs (a + 1)

/-- The memory after `Reset(rom)`: the image at 0x200, or no byte of it when it does not fit (R240 to R242). -/
def romMemory (c : Config) (rom : List Byte) : Memory :=
  if maxRomSize < rom.length then [] else placeBytes c rom loadAddress

/-- `RUN` after `Reset(rom)` (R240, R242). -/
def romRun (rom : List Byte) : RunState :=
  if maxRomSize < rom.length then .halted (.loadRange (BitVec.ofNat 16 (min rom.length 65535))) else .running

/-- `Reset(rom)`: nothing of the previous state survives (R240, R244). The parameters of the machine and what the
host will supply are no state of the machine's and stay (log entry 11). -/
def resetWith (rom : List Byte) (s : State) : State where
  v := Vector.replicate 16 0#8
  i := 0#16
  pc := BitVec.ofNat 16 loadAddress
  stack := []
  mem := romMemory s.cfg rom
  fb := Vector.replicate 32 0#64
  key := none
  dt := 0#8
  run := romRun rom
  cfg := s.cfg
  events := s.events
  rands := s.rands
  draws := s.draws

end Sys2Proof.Machine
end

