-- ==== Sys2Proof/Machine/Flags.lean ====
section
/-! DEFINITION. Every flag computation (spec/43_alu.md R144 to R149, spec/46_display.md R180). The flag is `V[15]`
itself and receives 0 or 1 (spec/10_state.md R22, R23). -/

namespace Sys2Proof.Machine

/-- Register 15, VF. -/
def vf : Nibble := 15#4

/-- A flag as a byte, 0 or 1, the upper seven bits zero (R149). -/
def flagByte (c : Bool) : Byte := if c then 1#8 else 0#8

/-- `V[15] <- 1 if c else 0` -/
def State.setFlag (s : State) (c : Bool) : State := s.setReg vf (flagByte c)

/-- The carry of 8xy4: the sum of the two unsigned bytes is above 255 (R144). -/
def carryOut (a b : Byte) : Bool := decide (255 < a.toNat + b.toNat)

/-- The flag of 8xy5: `sint8(a) > sint8(b)`, signed and strict (R145). -/
def signedGreater (a b : Byte) : Bool := decide (b.toInt < a.toInt)

/-- The flag of 8xy7: bit 7 of the difference (R147). -/
def signBit (d : Byte) : Bool := d.getLsbD 7

/-- The flag of 8xy6: the bit shifted out on the right (R146). -/
def shiftedOutRight (a : Byte) : Bool := a.getLsbD 0

/-- The flag of 8xyE: the bit shifted out on the left (R148). -/
def shiftedOutLeft (a : Byte) : Bool := a.getLsbD 7

end Sys2Proof.Machine
end

