-- ==== Sys2Proof/Machine/Operands.lean ====
section
/-! DEFINITION. Every operand form of spec/30_encoding.md R92 and spec/44_index_memory.md R166: a register, an
unsigned immediate taken verbatim, the bytes at `I`, `I+1`, ..., and the digits of a byte. -/

namespace Sys2Proof.Machine

/-- `zext_16(nnn)` (R12, R92) -/
def zextAddress (nnn : Imm12) : Word := nnn.setWidth 16

/-- `zext_16(b)` (R12) -/
def zextByte (b : Byte) : Word := b.setWidth 16

/-- The effective address of byte 0: `I` as an unbounded integer; byte `k` is at this plus `k` (R166). -/
def indexAddress (s : State) : Nat := s.i.toNat

/-- The byte count of Fx55 and Fx65, `x + 1` (R92). -/
def blockCount (x : Nibble) : Nat := x.toNat + 1

/-- `I <- (I + k) mod 65536` (R25) -/
def State.bumpI (s : State) (k : Nat) : State := s.setI (s.i + BitVec.ofNat 16 k)

/-- The address of the font sprite of digit `b`, `zext_16(b) * 5`, the whole byte multiplied (R67, R162). -/
def fontAddress (b : Byte) : Word := zextByte b * 5#16

/-- The decimal digits of a byte: hundreds, tens, units (R163). -/
def decimalDigits (b : Byte) : List Byte :=
  [BitVec.ofNat 8 (b.toNat / 100), BitVec.ofNat 8 (b.toNat / 10 % 10), BitVec.ofNat 8 (b.toNat % 10)]

/-- `IsPressed(c)`: the latch holds a key and its code, widened to 8 bits, is `c` (spec/47_input.md R185). -/
def isPressed (s : State) (c : Byte) : Bool :=
  match s.key with
  | none => false
  | some k => k.setWidth 8 == c

end Sys2Proof.Machine
end

