-- ==== Sys2Proof/Machine/Alu.lean ====
section
/-! DEFINITION. The register-register ALU instructions (spec/43_alu.md). The writes stand in the order of R150, and a
later write reads the registers as the earlier one left them. -/

namespace Sys2Proof.Machine

/-- 8xy0, move (R140). -/
def execLdReg (x y : Nibble) (s : State) : Host.Outcome State Fault Refusal :=
  .next (s.setReg x (s.reg y)).advance

/-- 8xy1, or; `V[15]` untouched (R141). -/
def execOrReg (x y : Nibble) (s : State) : Host.Outcome State Fault Refusal :=
  .next (s.setReg x (s.reg x ||| s.reg y)).advance

/-- 8xy2, and; `V[15]` untouched (R142). -/
def execAndReg (x y : Nibble) (s : State) : Host.Outcome State Fault Refusal :=
  .next (s.setReg x (s.reg x &&& s.reg y)).advance

/-- 8xy3, exclusive or; `V[15]` untouched (R143). -/
def execXorReg (x y : Nibble) (s : State) : Host.Outcome State Fault Refusal :=
  .next (s.setReg x (s.reg x ^^^ s.reg y)).advance

/-- 8xy4, add: the sum is computed before any write, the result is written first, then the carry (R144). -/
def execAddReg (x y : Nibble) (s : State) : Host.Outcome State Fault Refusal :=
  .next ((s.setReg x (s.reg x + s.reg y)).setFlag (carryOut (s.reg x) (s.reg y))).advance

/-- `V[x] <- V[x] - V[y]`, reading the registers of the given state. -/
def State.subFrom (s : State) (x y : Nibble) : State := s.setReg x (s.reg x - s.reg y)

/-- 8xy5, subtract: the signed greater-than flag is written first, then the difference of the registers as they now
are (R145). -/
def execSubReg (x y : Nibble) (s : State) : Host.Outcome State Fault Refusal :=
  .next ((s.setFlag (signedGreater (s.reg x) (s.reg y))).subFrom x y).advance

/-- `V[x] <- V[x] >> 1`, logical, reading the register of the given state. -/
def State.halve (s : State) (x : Nibble) : State := s.setReg x (s.reg x >>> 1)

/-- 8xy6, shift right: the bit shifted out is written first; `y` is ignored (R146). -/
def execShr (x _y : Nibble) (s : State) : Host.Outcome State Fault Refusal :=
  .next ((s.setFlag (shiftedOutRight (s.reg x))).halve x).advance

/-- 8xy7, reverse subtract: the difference is computed before any write, written first, then its sign (R147). -/
def execSubnReg (x y : Nibble) (s : State) : Host.Outcome State Fault Refusal :=
  .next ((s.setReg x (s.reg y - s.reg x)).setFlag (signBit (s.reg y - s.reg x))).advance

/-- `V[x] <- V[x] << 1`, 8-bit wrapping, reading the register of the given state. -/
def State.double (s : State) (x : Nibble) : State := s.setReg x (s.reg x <<< 1)

/-- 8xyE, shift left: the bit shifted out is written first; `y` is ignored (R148). -/
def execShl (x _y : Nibble) (s : State) : Host.Outcome State Fault Refusal :=
  .next ((s.setFlag (shiftedOutLeft (s.reg x))).double x).advance

end Sys2Proof.Machine
end

