-- ==== Sys2Proof/Machine/Display.lean ====
section
/-! DEFINITION. The display buffer, the XOR-blit engine and the display instructions (spec/46_display.md). -/

namespace Sys2Proof.Machine

/-- The pixel in column `cx mod 64` and row `cy mod 32` (R175, R178). -/
def pixel (f : FrameBuffer) (cx cy : Nat) : Bool :=
  (f[cy % 32]'(Nat.mod_lt _ (by decide))).getLsbD (cx % 64)

/-- Exclusive-or the bit `b` into the pixel in column `cx mod 64` and row `cy mod 32` (R177, R178). -/
def xorPixel (f : FrameBuffer) (cx cy : Nat) (b : Bool) : FrameBuffer :=
  if b then
    f.set (cy % 32) ((f[cy % 32]'(Nat.mod_lt _ (by decide))) ^^^ BitVec.twoPow 64 (cx % 64)) (Nat.mod_lt _ (by decide))
  else f

/-- Pixel index `i` of a sprite byte: bit `7 - i`, the most significant bit leftmost (R179). -/
def spriteBit (byte : Byte) (i : Nat) : Bool := byte.getLsbD (7 - i)

/-- The body of the loop of `DrawByte`: the buffer and the erasure flag after pixel index `i` (R179). -/
def drawPixel (byte : Byte) (px py : Nat) (acc : FrameBuffer × Bool) (i : Nat) : FrameBuffer × Bool :=
  (xorPixel acc.1 (px + i) py (spriteBit byte i), acc.2 || (spriteBit byte i && pixel acc.1 (px + i) py))

/-- `DrawByte(byte, px, py)`: the new buffer, and whether any pixel was erased (R179). -/
def drawByte (byte : Byte) (px py : Nat) (f : FrameBuffer) : FrameBuffer × Bool :=
  [0, 1, 2, 3, 4, 5, 6, 7].foldl (drawPixel byte px py) (f, false)

/-- Draw the sprite's bytes on successive rows from row `py`; the flag is set if any row erased a pixel (R180). -/
def drawRows (bytes : List Byte) (px py : Nat) (f : FrameBuffer) (hit : Bool) : FrameBuffer × Bool :=
  match bytes with
  | [] => (f, hit)
  | b :: bs => drawRows bs px (py + 1) (drawByte b px py f).1 (hit || (drawByte b px py f).2)

/-- The buffer with every pixel 0 (R176). -/
def clearBuffer : FrameBuffer := Vector.replicate 32 0#64

/-- 00E0, clear display; no flag (R176). -/
def execCls (s : State) : Host.Outcome State Fault Refusal := .next (s.setFb clearBuffer).advance

/-- The state after drawing: the buffer, then the collision flag, written last (R180). -/
def State.blit (s : State) (r : FrameBuffer × Bool) : State := (s.setFb r.1).setFlag r.2

/-- Dxyn, draw sprite: both coordinates are read before anything is written, the range is checked before anything is
drawn, `n = 0` draws nothing and clears the flag; `I` is unchanged (R180). -/
def execDrw (x y n : Nibble) (s : State) : Host.Outcome State Fault Refusal :=
  guarded (checkRange checkRead (indexAddress s) n.toNat) s
    (s.blit (drawRows (readBytes s (indexAddress s) n.toNat) (s.reg x).toNat (s.reg y).toNat s.fb false)).advance

end Sys2Proof.Machine
end

