-- ==== Sys2Proof/Machine/Flow.lean ====
section
/-! DEFINITION. Control transfer and SYS (spec/40_flow.md). A target is never checked when it is written (R115). -/

namespace Sys2Proof.Machine

/-- 00EE, return: pop the stack into `PC`, fatal when it is empty (R110). -/
def execRet (s : State) : Host.Outcome State Fault Refusal :=
  match s.stack with
  | [] => raiseFatal (.stackUnderflow s.pc) s
  | a :: rest => .next { s with pc := a, stack := rest }

/-- 0nnn, SYS: a no-operation; `nnn` is ignored (R111). -/
def execSys (_nnn : Imm12) (s : State) : Host.Outcome State Fault Refusal := .next s.advance

/-- 1nnn, jump (R112). -/
def execJp (nnn : Imm12) (s : State) : Host.Outcome State Fault Refusal := .next (s.setPc (zextAddress nnn))

/-- 2nnn, call: push `PC + 2` and jump, fatal when the stack is full (R113). -/
def execCall (nnn : Imm12) (s : State) : Host.Outcome State Fault Refusal :=
  if s.stackFull then raiseFatal (.stackOverflow s.pc) s
  else .next ((s.push (s.pc + 2#16)).setPc (zextAddress nnn))

/-- Bnnn, jump with offset `V[0]`; the sum is not reduced to 12 bits (R114). -/
def execJpV0 (nnn : Imm12) (s : State) : Host.Outcome State Fault Refusal :=
  .next (s.setPc (zextByte (s.reg 0#4) + zextAddress nnn))

end Sys2Proof.Machine
end

