-- ==== Sys2Proof/Machine/Immediate.lean ====
section
/-! DEFINITION. The register-immediate instructions (spec/42_immediate.md). -/

namespace Sys2Proof.Machine

/-- 6xnn, load immediate (R130). -/
def execLdImm (x : Nibble) (nn : Byte) (s : State) : Host.Outcome State Fault Refusal :=
  .next (s.setReg x nn).advance

/-- 7xnn, add immediate, 8-bit wrapping, no flag (R131). -/
def execAddImm (x : Nibble) (nn : Byte) (s : State) : Host.Outcome State Fault Refusal :=
  .next (s.setReg x (s.reg x + nn)).advance

end Sys2Proof.Machine
end

