-- ==== Sys2Proof/Machine/IndexMemory.lean ====
section
/-! DEFINITION. The index register, loads and stores (spec/44_index_memory.md). The whole range is checked before
anything is transferred (spec/20_memory.md R65). -/

namespace Sys2Proof.Machine

/-- Annn, load index immediate (R160). -/
def execLdI (nnn : Imm12) (s : State) : Host.Outcome State Fault Refusal :=
  .next (s.setI (zextAddress nnn)).advance

/-- Fx1E, add register to index, 16-bit wrapping, no flag (R161). -/
def execAddI (x : Nibble) (s : State) : Host.Outcome State Fault Refusal :=
  .next (s.setI (s.i + zextByte (s.reg x))).advance

/-- Fx29, load font sprite address (R162). -/
def execLdF (x : Nibble) (s : State) : Host.Outcome State Fault Refusal :=
  .next (s.setI (fontAddress (s.reg x))).advance

/-- Fx33, store binary-coded decimal; `I` is unchanged (R163). -/
def execLdB (x : Nibble) (s : State) : Host.Outcome State Fault Refusal :=
  guarded (checkRange checkWrite (indexAddress s) 3) s
    (writeBytes (decimalDigits (s.reg x)) (indexAddress s) s).advance

/-- Fx55, store registers `V[0]` to `V[x]`, then `I <- I + x + 1` (R164). -/
def execStRegs (x : Nibble) (s : State) : Host.Outcome State Fault Refusal :=
  guarded (checkRange checkWrite (indexAddress s) (blockCount x)) s
    ((writeBytes (readRegisters s 0 (blockCount x)) (indexAddress s) s).bumpI (blockCount x)).advance

/-- Fx65, load registers `V[0]` to `V[x]`, then `I <- I + x + 1` (R165). -/
def execLdRegs (x : Nibble) (s : State) : Host.Outcome State Fault Refusal :=
  guarded (checkRange checkRead (indexAddress s) (blockCount x)) s
    ((loadRegisters (readBytes s (indexAddress s) (blockCount x)) 0 s).bumpI (blockCount x)).advance

end Sys2Proof.Machine
end

