-- ==== Sys2Proof/Machine/Input.lean ====
section
/-! DEFINITION. The input latch instructions and the key event (spec/47_input.md). -/

namespace Sys2Proof.Machine

/-- Ex9E, skip if the key `V[x]` is pressed (R186). -/
def execSkp (x : Nibble) (s : State) : Host.Outcome State Fault Refusal :=
  .next (s.skipIf (isPressed s (s.reg x)))

/-- ExA1, skip if the key `V[x]` is not pressed (R187). -/
def execSknp (x : Nibble) (s : State) : Host.Outcome State Fault Refusal :=
  .next (s.skipIf (!isPressed s (s.reg x)))

/-- Fx0A, wait for a key: `PC` stays at this instruction; the latch is not looked at (R188). -/
def execLdVxK (x : Nibble) (s : State) : Host.Outcome State Fault Refusal :=
  .next (s.setRun (.waitingForKey x))

/-- The end of a wait: `V[x] <- zext_8(k); PC <- PC + 2; RUN <- Running` (R189). -/
def State.resume (s : State) (x k : Nibble) : State := ((s.setReg x (k.setWidth 8)).advance).setRun .running

/-- `KeyEvent(k)`: the latch takes the value in every run state; a key, and not `none`, ends a wait (R189). -/
def keyEvent (k : Option Nibble) (s : State) : State :=
  match s.run, k with
  | .waitingForKey x, some c => (s.setKey k).resume x c
  | _, _ => s.setKey k

end Sys2Proof.Machine
end

