-- ==== Sys2Proof/Machine/Random.lean ====
section
/-! DEFINITION. The random number instruction (spec/45_random.md). -/

namespace Sys2Proof.Machine

/-- Cxnn, random byte: any of the 256 values, `nn` is ignored (R171, R172). -/
def execRnd (x : Nibble) (_nn : Byte) (s : State) : Host.Outcome State Fault Refusal :=
  .next (s.drawn.setReg x s.rand).advance

end Sys2Proof.Machine
end

