-- ==== Sys2Proof/Machine/Skip.lean ====
section
/-! DEFINITION. The skips on registers (spec/41_skip.md). -/

namespace Sys2Proof.Machine

/-- 3xnn, skip if `V[x] = nn` (R120). -/
def execSeImm (x : Nibble) (nn : Byte) (s : State) : Host.Outcome State Fault Refusal :=
  .next (s.skipIf (s.reg x == nn))

/-- 4xnn, skip if `V[x] != nn` (R121). -/
def execSneImm (x : Nibble) (nn : Byte) (s : State) : Host.Outcome State Fault Refusal :=
  .next (s.skipIf (s.reg x != nn))

/-- 5xy0, skip if `V[x] = V[y]` (R122). -/
def execSeReg (x y : Nibble) (s : State) : Host.Outcome State Fault Refusal :=
  .next (s.skipIf (s.reg x == s.reg y))

/-- 9xy0, skip if `V[x] != V[y]` (R123). -/
def execSneReg (x y : Nibble) (s : State) : Host.Outcome State Fault Refusal :=
  .next (s.skipIf (s.reg x != s.reg y))

end Sys2Proof.Machine
end

