-- ==== Sys2Proof/Machine/TimerSound.lean ====
section
/-! DEFINITION. The timer and sound instructions and the tick (spec/48_timer_sound.md). -/

namespace Sys2Proof.Machine

/-- Fx07, read timer (R196). -/
def execLdVxDt (x : Nibble) (s : State) : Host.Outcome State Fault Refusal := .next (s.setReg x s.dt).advance

/-- Fx15, load timer (R197). The restart of the tick period is the host's (R198, log entry 12). -/
def execLdDtVx (x : Nibble) (s : State) : Host.Outcome State Fault Refusal := .next (s.setDt (s.reg x)).advance

/-- Fx18, load sound timer: a no-operation; the register is not read (R199). -/
def execLdStVx (_x : Nibble) (s : State) : Host.Outcome State Fault Refusal := .next s.advance

/-- `TimerTick`: the timer counts down to zero and stops, in every run state (R198). -/
def timerTick (s : State) : State := if s.dt = 0#8 then s else s.setDt (s.dt - 1#8)

end Sys2Proof.Machine
end

