-- ==== Sys2Proof/Machine/Cycle.lean ====
section
/-! DEFINITION. The step cycle (spec/30_encoding.md R93), the host's events (spec/00_scope.md R8, R9), and what the
host can observe. -/

namespace Sys2Proof.Machine

/-- One fetch-decode-execute: fetch, then decode, then the instruction's own rule; the first that fails is the fatal
error reported (R93, R208). -/
def runInstruction (s : State) : Host.Outcome State Fault Refusal :=
  match fetchWord s with
  | .error f => raiseFatal f s
  | .ok w =>
    match decodeWord w with
    | .error _ => raiseFatal (.illegalOpcode w) s
    | .ok i => exec i s

/-- The event `Step`: it does nothing while the machine waits or is halted (R211, R212). -/
def stepEvent (s : State) : Host.Outcome State Fault Refusal :=
  match s.run with
  | .running => runInstruction s
  | .waitingForKey _ => .next s
  | .halted _ => .next s

/-- One event of the host. -/
def handleEvent (e : HostEvent) (s : State) : Host.Outcome State Fault Refusal :=
  match e with
  | .step => stepEvent s
  | .keyEvent k => .next (keyEvent k s)
  | .timerTick => .next (timerTick s)
  | .reset rom => .next (resetWith rom s)

/-- The host's next event: the oldest of `events`, or `Step` when none is listed (log entry 1). -/
def nextEvent (s : State) : HostEvent := s.events.headD .step

/-- The next event, taken off the list and handled, as one atomic action (R8). -/
def cycle (s : State) : Host.Outcome State Fault Refusal := handleEvent (nextEvent s) (s.setEvents s.events.tail)

/-- Where the next fetch can be: `PC`, or the load address when no word can be fetched at `PC` (R63). -/
def fetchablePc (s : State) : Word := if 4095 < s.pc.toNat + 1 then BitVec.ofNat 16 loadAddress else s.pc

/-- The state whose next step fetches and runs the word `w`: the machine is running, the host issues `Step`, `PC` is
fetchable, and the two bytes there are the word's (log entry 14). -/
def placeWord (s : State) (w : Word) : State :=
  writeBytes (bytesOfWord w) (fetchablePc s).toNat { s with pc := fetchablePc s, run := .running, events := [] }

/-- What the host can read, at any time and without effect (R9, R182). -/
structure Output where
  /-- the framebuffer -/
  frame : FrameBuffer
  /-- true exactly when `RUN = WaitingForKey(_)` -/
  waiting : Bool
  /-- the cause code and info when `RUN = Halted(_)` -/
  halted : Option (Nat × Word)
deriving DecidableEq, Repr

/-- The `waiting` signal (R9). -/
def State.isWaiting (s : State) : Bool :=
  match s.run with
  | .waitingForKey _ => true
  | .running => false
  | .halted _ => false

/-- The fatal error a halted machine holds (R9, R35). -/
def State.fault? (s : State) : Option Fault :=
  match s.run with
  | .halted f => some f
  | .running => none
  | .waitingForKey _ => none

/-- The outputs of R9. -/
def State.output (s : State) : Output := ⟨s.fb, s.isWaiting, s.fault?.map fun f => (f.code, f.info)⟩

end Sys2Proof.Machine
end

