-- ==== Sys2Proof/Machine/Step.lean ====
section
/-! DEFINITION. The step of the machine and the host's way to place an instruction; both only call
Machine/Cycle.lean. -/

namespace Sys2Proof.Machine

/-- One atomic action of the machine: the host's next event, which is `Step` when none is listed (spec/00_scope.md
R8, spec/30_encoding.md R93). -/
def step (s : State) : Host.Outcome State Fault Refusal := cycle s

/-- `s` with the opcode-table word `w` of `nbits` bits stored where the next step fetches (log entry 14). -/
def State.withFetchWord (s : State) (nbits w : Nat) : State := placeWord s (BitVec.ofNat 16 (w % 2 ^ nbits))

end Sys2Proof.Machine
end

