-- ==== Sys2Proof/Safety.lean ====
section
/-! DEFINITION. What counts as a safe run and as the end of one (spec/00_scope.md R15, spec/60_exceptions.md R212,
R221), the invariants of the machine, and the vocabulary of frames: the parts of the state and what an instruction
may write (spec/10_state.md R39). -/

namespace Sys2Proof.Machine

/-! ### Faults, ends and runs -/

/-- A halted machine is a fault state, never a good one (R15, R212). -/
def NoFatal (s : State) : Prop := s.fault? = none

/-- `t` comes after `s` by some number of steps, whatever the host issues (R8). -/
inductive Reaches (s : State) : State → Prop where
  | refl : Reaches s s
  | next {t u : State} : Reaches s t → step t = .next u → Reaches s u

/-- No state of any run from `s` is a fault state. -/
def SafeFrom (s : State) : Prop := ∀ t, Reaches s t → NoFatal t

/-- The recommended end of a run: running, and the instruction at `PC` is a 1nnn with `nnn = PC` (R221). -/
def Ended (s : State) : Prop :=
  s.run = .running ∧ ∃ nnn, fetchWord s = .ok (encode (.jp nnn)) ∧ zextAddress nnn = s.pc

/-! ### Parts of the state -/

/-- The parts a frame speaks of: each register, each byte of memory, and the other items of `State`. -/
inductive Part where
  | reg (x : Nibble)
  | index
  | pc
  | stack
  | byte (address : Nat)
  | fb
  | key
  | dt
  | run
  | cfg
  | events
  | rands
  | draws
deriving DecidableEq, Repr

/-- The part reads the same in both states. -/
def Unchanged (p : Part) (s t : State) : Prop :=
  match p with
  | .reg x => t.reg x = s.reg x
  | .index => t.i = s.i
  | .pc => t.pc = s.pc
  | .stack => t.stack = s.stack
  | .byte a => t.readByte a = s.readByte a
  | .fb => t.fb = s.fb
  | .key => t.key = s.key
  | .dt => t.dt = s.dt
  | .run => t.run = s.run
  | .cfg => t.cfg = s.cfg
  | .events => t.events = s.events
  | .rands => t.rands = s.rands
  | .draws => t.draws = s.draws

/-- Every part that is not listed reads the same in both states. -/
def ChangesOnly (parts : List Part) (s t : State) : Prop := ∀ p, p ∉ parts → Unchanged p s t

/-- The bytes at `a`, `a+1`, ..., `n` of them. -/
def bytesFrom (a n : Nat) : List Part := (List.range n).map fun k => Part.byte (a + k)

/-- The registers `V[0]` to `V[x]`. -/
def regsUpTo (x : Nibble) : List Part := (List.range (x.toNat + 1)).map fun k => Part.reg (BitVec.ofNat 4 k)

/-- The column "writes" of the table of R39: all that an instruction that raises no fatal error may write. The last
two parts of Cxnn are the model's own (log entry 2). -/
def writes (i : Instr) (s : State) : List Part :=
  match i with
  | .cls => [.fb, .pc]
  | .ret => [.stack, .pc]
  | .sys _ => [.pc]
  | .jp _ => [.pc]
  | .call _ => [.stack, .pc]
  | .seImm _ _ => [.pc]
  | .sneImm _ _ => [.pc]
  | .seReg _ _ => [.pc]
  | .sneReg _ _ => [.pc]
  | .ldImm x _ => [.reg x, .pc]
  | .addImm x _ => [.reg x, .pc]
  | .ldReg x _ => [.reg x, .pc]
  | .orReg x _ => [.reg x, .pc]
  | .andReg x _ => [.reg x, .pc]
  | .xorReg x _ => [.reg x, .pc]
  | .addReg x _ => [.reg x, .reg vf, .pc]
  | .subReg x _ => [.reg x, .reg vf, .pc]
  | .shr x _ => [.reg x, .reg vf, .pc]
  | .subnReg x _ => [.reg x, .reg vf, .pc]
  | .shl x _ => [.reg x, .reg vf, .pc]
  | .ldI _ => [.index, .pc]
  | .jpV0 _ => [.pc]
  | .rnd x _ => [.reg x, .pc, .rands, .draws]
  | .drw _ _ _ => [.fb, .reg vf, .pc]
  | .skp _ => [.pc]
  | .sknp _ => [.pc]
  | .ldVxDt x => [.reg x, .pc]
  | .ldVxK _ => [.run]
  | .ldDtVx _ => [.dt, .pc]
  | .ldStVx _ => [.pc]
  | .addI _ => [.index, .pc]
  | .ldF _ => [.index, .pc]
  | .ldB _ => .pc :: bytesFrom (indexAddress s) 3
  | .stRegs x => .index :: .pc :: bytesFrom (indexAddress s) (blockCount x)
  | .ldRegs x => .index :: .pc :: regsUpTo x

/-! ### Invariants -/

/-- What every step keeps: memory is canonical and lists only addresses a program can store to (R60, R64); the
stack is within `STACK_DEPTH`, which is at least 1 (R7, R29); return addresses are in 2 to 4096 (R110); `PC` is at
most 4350 (R28); while the machine waits, the word at `PC` is the Fx0A it waits for (R188). -/
structure Inv (s : State) : Prop where
  memory_canonical : Memory.wf s.cfg s.mem
  memory_storable : ∀ cell ∈ s.mem, 80 ≤ cell.1 ∧ cell.1 ≤ 4095
  depth_positive : s.cfg.stackDepth ≠ some 0
  stack_within_depth : ∀ d, s.cfg.stackDepth = some d → s.sp ≤ d
  return_addresses : ∀ a ∈ s.stack, 2 ≤ a.toNat ∧ a.toNat ≤ 4096
  pc_bounded : s.pc.toNat ≤ 4350
  waiting_at_key_wait : ∀ x, s.run = .waitingForKey x → fetchWord s = .ok (encode (.ldVxK x))

/-- The check of the instruction `i`'s own rule that fails at `s`, with the `info` of the table of R200: an empty stack
at 00EE, a full one at 2nnn (R202), a range of Dxyn, Fx33, Fx55 or Fx65 that passes address 4095, or a range of Fx33 or
Fx55 that starts below 80 (R204, spec/20_memory.md R65). No other instruction has a check of its own. -/
def OwnFault (i : Instr) (s : State) (f : Fault) : Prop :=
  match f with
  | .stackUnderflow p => p = s.pc ∧ i = .ret ∧ s.sp = 0
  | .stackOverflow p => p = s.pc ∧ s.cfg.stackDepth = some s.sp ∧ ∃ nnn, i = .call nnn
  | .dataRange a => a.toNat = max s.i.toNat 4096 ∧
      ((∃ x y n, i = .drw x y n ∧ 0 < n.toNat ∧ 4096 < s.i.toNat + n.toNat) ∨
        (∃ x, i = .ldB x ∧ 80 ≤ s.i.toNat ∧ 4095 < s.i.toNat + 2) ∨
        (∃ x, i = .stRegs x ∧ 80 ≤ s.i.toNat ∧ 4095 < s.i.toNat + x.toNat) ∨
        ∃ x, i = .ldRegs x ∧ 4095 < s.i.toNat + x.toNat)
  | .fontWrite a => a = s.i ∧ s.i.toNat < 80 ∧ ∃ x, i = .ldB x ∨ i = .stRegs x
  | .illegalOpcode _ | .fetchRange _ | .loadRange _ => False

/-- The fatal error a `Step` of a running machine raises at `s` (the table of R200 in the priority of R208): no word to
fetch at `PC`, a word that is no instruction, or the own check of the instruction whose word lies at `PC`. -/
def StepFault (f : Fault) (s : State) : Prop :=
  match f with
  | .fetchRange p => p = s.pc ∧ 4094 < s.pc.toNat
  | .illegalOpcode w => fetchWord s = .ok w ∧ ∀ i, decodeWord w ≠ .ok i
  | .stackUnderflow _ | .stackOverflow _ | .dataRange _ | .fontWrite _ | .loadRange _ =>
    ∃ i, fetchWord s = .ok (encode i) ∧ OwnFault i s f

/-- What a recorded fatal error says of the state that holds it (the table of R200): a `Step` at that state would raise
it, or, for LoadRange, which `Reset` alone raises, the image was longer than 3584 bytes. -/
def FaultReport (f : Fault) (s : State) : Prop :=
  match f with
  | .loadRange n => 3584 < n.toNat
  | .illegalOpcode _ | .stackUnderflow _ | .stackOverflow _ | .fetchRange _ | .dataRange _ | .fontWrite _ => StepFault f s

/-- A halted machine's recorded cause is true of its state. -/
def HaltReportTrue (s : State) : Prop := ∀ f, s.run = .halted f → FaultReport f s

end Sys2Proof.Machine
end

