-- ==== Sys2Proof/Certificates/Slice0/Obligations.lean ====
section
/-! DEFINITION. The statements for the provers. An instruction's frame is said with `ChangesOnly parts s t`: every part
of the state that is not listed (each register, each byte of memory by its address, `I`, `PC`, the stack, the display,
the latch, the timer, the run state, the parameters and the model's own fields) reads the same in `t` as in `s`. D<n> names the decision of spec/92_eei_decisions.md a rule
rests on (log entry 16). -/

namespace Sys2Proof.Machine

/-- The two's-complement reading of a byte as spec/00_scope.md R12 writes it. -/
def sint8 (v : Byte) : Int := if v.toNat < 128 then (v.toNat : Int) else (v.toNat : Int) - 256

/-- Bit `true` as the flag value 1 (R23). -/
def asFlag (p : Prop) [Decidable p] : Byte := if p then 1#8 else 0#8

/-- `exec i s` raises the fatal error `f` and changes nothing but `RUN` (R206, R207). -/
def Raises (i : Instr) (s : State) (f : Fault) : Prop :=
  ∃ t, exec i s = .next t ∧ t.run = .halted f ∧ ChangesOnly [.run] s t

/-- The sprite of `n` bytes at `I`, drawn at (`px`, `py`), has a 1 over the pixel in column `cx` and row `cy`: byte
`r`, pixel index `i`, that is bit `7 - i`, lands in column `(px + i) mod 64` and row `(py + r) mod 32` (R178 to
R180). -/
def Covers (s : State) (n px py cx cy : Nat) : Prop :=
  ∃ r < n, ∃ i < 8, (py + r) % 32 = cy ∧ (px + i) % 64 = cx ∧ (s.readByte (s.i.toNat + r)).getLsbD (7 - i) = true

/-- The instruction a step at `s` would run: the machine is running and the word at `PC` decodes to `i` (R93). -/
def AboutToRun (s : State) (i : Instr) : Prop :=
  s.run = .running ∧ ∃ w, fetchWord s = .ok w ∧ decodeWord w = .ok i

/-- At `s` the host issues `Step`, and `u` is `s` with that event taken off the list (log entry 1): an empty list means
`Step` and stays empty. -/
def TakesStep (s u : State) : Prop :=
  (s.events = [] ∧ u = s) ∨ ∃ rest, s.events = .step :: rest ∧ u = s.setEvents rest

end Sys2Proof.Machine

open Sys2Proof Sys2Proof.Machine

/-! ### Decoding and encoding (spec/30_encoding.md) -/

/-- Words written out from the spec's patterns, at least one of every family, decode to their instructions, and five
illegal words decode to none. The first three are R103's. -/
def Obligations.DecodesWrittenOutWords : Prop :=
  decodeWord 0x6005#16 = .ok (.ldImm 0x0#4 0x05#8) ∧
  decodeWord 0x610A#16 = .ok (.ldImm 0x1#4 0x0A#8) ∧
  decodeWord 0x8014#16 = .ok (.addReg 0x0#4 0x1#4) ∧
  decodeWord 0x00E0#16 = .ok .cls ∧
  decodeWord 0x00EE#16 = .ok .ret ∧
  decodeWord 0x01E0#16 = .ok (.sys 0x1E0#12) ∧
  decodeWord 0x1ABC#16 = .ok (.jp 0xABC#12) ∧
  decodeWord 0x332A#16 = .ok (.seImm 0x3#4 0x2A#8) ∧
  decodeWord 0x9120#16 = .ok (.sneReg 0x1#4 0x2#4) ∧
  decodeWord 0x7220#16 = .ok (.addImm 0x2#4 0x20#8) ∧
  decodeWord 0x82AE#16 = .ok (.shl 0x2#4 0xA#4) ∧
  decodeWord 0xA2F0#16 = .ok (.ldI 0x2F0#12) ∧
  decodeWord 0xF255#16 = .ok (.stRegs 0x2#4) ∧
  decodeWord 0xC30F#16 = .ok (.rnd 0x3#4 0x0F#8) ∧
  decodeWord 0xD015#16 = .ok (.drw 0x0#4 0x1#4 0x5#4) ∧
  decodeWord 0xE29E#16 = .ok (.skp 0x2#4) ∧
  decodeWord 0xF30A#16 = .ok (.ldVxK 0x3#4) ∧
  decodeWord 0xF215#16 = .ok (.ldDtVx 0x2#4) ∧
  (∀ w ∈ [0x5121#16, 0x800F#16, 0x912F#16, 0xE000#16, 0xF1FF#16], ∀ i, decodeWord w ≠ .ok i)

/-- Decoding an encoded well-formed instruction gives it back, from the word and from the bytes as memory holds
them, whatever bytes follow. -/
def Obligations.DecodeOfEncode : Prop :=
  ∀ i : Instr, i.wf = true →
    decodeWord (encode i) = .ok i ∧ ∀ rest, decodeBytes (encodeBytes i ++ rest) = .ok (i, rest)

/-- Every word that decodes is the encoding of what it decodes to, which is well formed: no bit is lost, and two
words never mean the same instruction term. -/
def Obligations.EncodeOfDecode : Prop :=
  ∀ (w : Word) (i : Instr), decodeWord w = .ok i → encode i = w ∧ i.wf = true

/-- R97: the decoder is the opcode table. For every word, the first row whose mask and match fit is the row of the
instruction it decodes to, and no row fits exactly the words that decode to none; the rows 00E0 and 00EE stand first,
which is the one priority rule. -/
def Obligations.DecoderIsOpcodeTable : Prop :=
  ∀ w : Word,
    (opcodeTable.find? fun r => r.matchesWord w).map TableRow.pattern =
      match decodeWord w with
      | .ok i => some i.pattern
      | .error _ => none

/-- R98: which words are illegal. -/
def Obligations.IllegalWordsExactly : Prop :=
  ∀ w : Word, (∀ i, decodeWord w ≠ .ok i) ↔
    (opField w = 0x5#4 ∧ nField w ≠ 0x0#4) ∨
    (opField w = 0x9#4 ∧ nField w ≠ 0x0#4) ∨
    (opField w = 0x8#4 ∧ nField w ∈ [0x8#4, 0x9#4, 0xA#4, 0xB#4, 0xC#4, 0xD#4, 0xF#4]) ∨
    (opField w = 0xE#4 ∧ nnField w ≠ 0x9E#8 ∧ nnField w ≠ 0xA1#8) ∨
    (opField w = 0xF#4 ∧
      nnField w ∉ [0x07#8, 0x0A#8, 0x15#8, 0x18#8, 0x1E#8, 0x29#8, 0x33#8, 0x55#8, 0x65#8])

/-! ### The step cycle -/

/-- R93: while the machine runs and the host issues `Step`, the bytes at `PC` of a well-formed instruction `i` make
the step exactly `exec i`. That the host issues `Step` is an empty event list, or `step` at its head, which is taken
off (log entry 1). -/
def Obligations.StepRunsDecodedInstruction : Prop :=
  ∀ (s : State) (i : Instr), s.run = .running → s.pc.toNat ≤ 4094 → i.wf = true →
    encodeBytes i = [s.readByte s.pc.toNat, s.readByte (s.pc.toNat + 1)] →
    (s.events = [] → step s = exec i s) ∧
    (∀ rest, s.events = .step :: rest → step s = exec i (s.setEvents rest))

/-- R208, R63, R201: the stages of a step while the machine runs. `PC` above 4094 is FetchRange whatever the bytes
are; otherwise the big-endian word at `PC` is IllegalOpcode if it decodes to nothing; otherwise the instruction runs.
In the first two cases nothing but `RUN` changes (D5, D24). `u` is `s` with the `Step` taken off the host's list (log
entry 1). -/
def Obligations.StepStagesInOrder : Prop :=
  ∀ s u : State, TakesStep s u → s.run = .running →
    (4094 < s.pc.toNat → ∃ t, step s = .next t ∧ t.run = .halted (.fetchRange s.pc) ∧ ChangesOnly [.run] u t) ∧
    (s.pc.toNat ≤ 4094 → ∀ w : Word,
      w.toNat = 256 * (s.readByte s.pc.toNat).toNat + (s.readByte (s.pc.toNat + 1)).toNat →
      ((∀ i, decodeWord w ≠ .ok i) →
        ∃ t, step s = .next t ∧ t.run = .halted (.illegalOpcode w) ∧ ChangesOnly [.run] u t) ∧
      (∀ i, decodeWord w = .ok i → step s = exec i u))

/-- R211 (D15) and R212: a `Step` while the machine waits or is halted changes no state at all; only the event itself
leaves the host's list (log entry 1). -/
def Obligations.StepIdleUnlessRunning : Prop :=
  ∀ s u : State, TakesStep s u → s.run ≠ .running → step s = .next u

/-- Whatever the host issues next is handled as one atomic action, on the state with that event taken off the list
(R8, R9; the event list is the model's, log entry 1). -/
def Obligations.StepTakesHostEvent : Prop :=
  ∀ (s : State) (rest : List HostEvent),
    (∀ k, s.events = .keyEvent k :: rest → step s = .next (keyEvent k (s.setEvents rest))) ∧
    (s.events = .timerTick :: rest → step s = .next (timerTick (s.setEvents rest))) ∧
    (∀ rom, s.events = .reset rom :: rest → step s = .next (resetWith rom (s.setEvents rest))) ∧
    (s.events = .step :: rest → step s = stepEvent (s.setEvents rest)) ∧
    (s.events = [] → step s = stepEvent s)

/-- The machine never stops with a fault or a refusal: every step from every state gives a next state, a fatal error
being the next state it leaves (R206; log entry 6). -/
def Obligations.EveryStepAnswersNext : Prop := ∀ s : State, ∃ t, step s = .next t

/-! ### Fatal errors (spec/60_exceptions.md) -/

/-- R206 and R207 (D6) over every instruction and every state: when the step of a running machine raises, the run state
holds the fatal error and every other part of the state is as before the step, `u` being the state with the `Step`
taken off the host's list (log entry 1). -/
def Obligations.FatalErrorsArePrecise : Prop :=
  ∀ (s u t : State) (f : Fault), TakesStep s u → s.run = .running → step s = .next t → t.run = .halted f →
    t = u.setRun (.halted f)

/-- R200 (D16): the cause and `info` recorded in a halted machine are true of the state it left, and every step keeps
that so: the word at `PC` is illegal, or is the 00EE, the 2nnn, the Dxyn, Fx33, Fx55 or Fx65 whose own check fails there,
or `PC` is above 4094, or the image was too long. -/
def Obligations.HaltReportKept : Prop :=
  ∀ s t : State, HaltReportTrue s → step s = .next t → HaltReportTrue t

/-- R209: `Halted` is absorbing; the fatal error recorded first stays until a `Reset`. -/
def Obligations.HaltedUntilReset : Prop :=
  ∀ (s t : State) (f : Fault), s.run = .halted f → step s = .next t →
    t.run = .halted f ∨ ∃ rom rest, s.events = .reset rom :: rest

/-- R210, the table of run-state transitions: from each run state, under each event, the run state after the step is
the one the table gives. For the `Step` of a running machine it is said in both directions: the step ends in
`Halted f` if and only if `f` is the fatal error of R200 that a `Step` raises there, in `WaitingForKey(x)` if and only if
an Fx0A with field `x` is at `PC`, and in `Running` if and only if another instruction is at `PC` and nothing is raised.
An empty event list means `Step` (log entry 1). -/
def Obligations.RunStateTransitions : Prop :=
  ∀ s t : State, step s = .next t →
    match s.events.headD .step, s.run with
    | .reset rom, _ =>
      t.run = if 3584 < rom.length then .halted (.loadRange (BitVec.ofNat 16 (min rom.length 65535))) else .running
    | .timerTick, r => t.run = r
    | .keyEvent (some _), .waitingForKey _ => t.run = .running
    | .keyEvent _, r => t.run = r
    | .step, .waitingForKey x => t.run = .waitingForKey x
    | .step, .halted f => t.run = .halted f
    | .step, .running =>
      (∀ f, t.run = .halted f ↔ StepFault f s) ∧
      (∀ x, t.run = .waitingForKey x ↔ AboutToRun s (.ldVxK x)) ∧
      (t.run = .running ↔ ∃ i, AboutToRun s i ∧ (∀ x, i ≠ .ldVxK x) ∧ ∀ f, ¬ StepFault f s)

/-- R9 (D23), R200 (D16): what the host reads: the framebuffer; `waiting`, true exactly in `WaitingForKey`; and
`halted` with the cause code of R200's table and the info, exactly in `Halted`. -/
def Obligations.OutputsReportRunState : Prop :=
  ∀ (s : State) (w : Word),
    s.output.frame = s.fb ∧
    (s.output.waiting = true ↔ ∃ x, s.run = .waitingForKey x) ∧
    (s.output.halted = none ↔ ∀ f, s.run ≠ .halted f) ∧
    (s.run = .halted (.illegalOpcode w) → s.output.halted = some (1, w)) ∧
    (s.run = .halted (.stackUnderflow w) → s.output.halted = some (2, w)) ∧
    (s.run = .halted (.stackOverflow w) → s.output.halted = some (3, w)) ∧
    (s.run = .halted (.fetchRange w) → s.output.halted = some (4, w)) ∧
    (s.run = .halted (.dataRange w) → s.output.halted = some (5, w)) ∧
    (s.run = .halted (.fontWrite w) → s.output.halted = some (6, w)) ∧
    (s.run = .halted (.loadRange w) → s.output.halted = some (7, w))

/-! ### Invariants -/

/-- Every step, whatever the host issues, keeps the invariants of the machine. -/
def Obligations.InvariantKept : Prop := ∀ s t : State, Inv s → step s = .next t → Inv t

/-- The reset state meets the invariants, and so does every `Reset(rom)` of a machine with a legal `STACK_DEPTH`. -/
def Obligations.ResetMeetsInvariant : Prop :=
  Inv State.reset ∧ HaltReportTrue State.reset ∧
  ∀ (rom : List Byte) (s : State), s.cfg.stackDepth ≠ some 0 → Inv (resetWith rom s) ∧ HaltReportTrue (resetWith rom s)

/-- R64 (D7): whatever runs, the font region reads as `FONT_ROM`; here, no step but a `Reset` changes what any of its
addresses reads, from any state at all. -/
def Obligations.FontNeverOverwritten : Prop :=
  ∀ (s t : State) (a : Nat), a < 80 → step s = .next t → (∀ rom rest, s.events ≠ .reset rom :: rest) →
    t.readByte a = s.readByte a

/-- R39, the column "writes": an instruction that raises no fatal error changes only the parts the table lists for
it, and one that raises changes only `RUN`. -/
def Obligations.WritesOnlyWhatTheTableLists : Prop :=
  ∀ (i : Instr) (s t : State), exec i s = .next t →
    ChangesOnly (writes i s) s t ∨ ∃ f, t.run = .halted f ∧ ChangesOnly [.run] s t

/-- R23: an instruction that is none of 8xy4, 8xy5, 8xy6, 8xy7, 8xyE and Dxyn changes `V[15]` only if its own
destination is register 15, or, for Fx65, if `x` is 15; and those six, when they change it, leave 0 or 1 there, but for
8Fy5 and 8FyE, whose result is register 15 itself and is written last (R145, R148). -/
def Obligations.FlagRegisterWriters : Prop :=
  ∀ (i : Instr) (s t : State), exec i s = .next t → t.reg vf ≠ s.reg vf →
    match i with
    | .addReg _ _ | .subReg _ _ | .shr _ _ | .subnReg _ _ | .shl _ _ | .drw _ _ _ => t.reg vf = 0#8 ∨ t.reg vf = 1#8 ∨
        ∃ y, i = .subReg vf y ∨ i = .shl vf y
    | .ldImm x _ | .addImm x _ | .ldReg x _ | .orReg x _ | .andReg x _ | .xorReg x _ | .rnd x _ | .ldVxDt x
    | .ldRegs x => x = vf
    | _ => False

/-- R29, R31 to R34: which steps can change the display, the latch, memory, the call stack and the parameters. -/
def Obligations.OnlyTheirInstructionsChange : Prop :=
  ∀ s t : State, step s = .next t → (∀ rom rest, s.events ≠ .reset rom :: rest) →
    (t.fb ≠ s.fb → AboutToRun s .cls ∨ ∃ x y n, AboutToRun s (.drw x y n)) ∧
    (t.key ≠ s.key → ∃ k rest, s.events = .keyEvent k :: rest) ∧
    ((∃ a, t.readByte a ≠ s.readByte a) → ∃ x, AboutToRun s (.ldB x) ∨ AboutToRun s (.stRegs x)) ∧
    (t.stack ≠ s.stack → AboutToRun s .ret ∨ ∃ nnn, AboutToRun s (.call nnn)) ∧
    t.cfg = s.cfg

/-- R32: no instruction reads a pixel as data. Two states that differ only in the display go, under any instruction,
to states that differ at most in the display and, for Dxyn, in the collision flag. -/
def Obligations.DisplayOnlyObservedByCollision : Prop :=
  ∀ (i : Instr) (s : State) (f : FrameBuffer), ∃ t u, exec i s = .next t ∧ exec i (s.setFb f) = .next u ∧
    ∀ p, p ≠ .fb → ((∃ x y n, i = .drw x y n) → p ≠ .reg vf) → Unchanged p t u

/-- R33, R34: the latch is read by Ex9E and ExA1 only, the timer by Fx07 only. -/
def Obligations.LatchAndTimerReaders : Prop :=
  ∀ (i : Instr) (s : State) (k : Option Nibble) (b : Byte),
    ((∀ x, i ≠ .skp x ∧ i ≠ .sknp x) → ∃ t u, exec i s = .next t ∧ exec i (s.setKey k) = .next u ∧
      ∀ p, p ≠ .key → Unchanged p t u) ∧
    ((∀ x, i ≠ .ldVxDt x) → ∃ t u, exec i s = .next t ∧ exec i (s.setDt b) = .next u ∧
      ∀ p, p ≠ .dt → Unchanged p t u)

/-! ### Control transfer (spec/40_flow.md) -/

/-- R110: 00EE. -/
def Obligations.ReturnPopsOrUnderflows : Prop :=
  decodeWord 0x00EE#16 = .ok .ret ∧
  ∀ s : State,
    (s.sp = 0 → Raises .ret s (.stackUnderflow s.pc)) ∧
    (0 < s.sp → ∃ t, exec .ret s = .next t ∧ s.stackEntry (s.sp - 1) = some t.pc ∧ t.sp = s.sp - 1 ∧
      (∀ k < t.sp, t.stackEntry k = s.stackEntry k) ∧ ChangesOnly [.stack, .pc] s t ∧
      (Inv s → 2 ≤ t.pc.toNat ∧ t.pc.toNat ≤ 4096) ∧
      (4094 < t.pc.toNat → fetchWord t = .error (.fetchRange t.pc)))

/-- R111 and R199: 0nnn and Fx18 advance `PC` by 2 and change nothing else, whatever their ignored field is. -/
def Obligations.NoOperationsOnlyAdvance : Prop :=
  (∀ nnn : Imm12, nnn ≠ 0x0E0#12 → nnn ≠ 0x0EE#12 → decodeWord (wordOfNnn 0x0#4 nnn) = .ok (.sys nnn)) ∧
  (∀ x : Nibble, decodeWord (wordOfXnn 0xF#4 x 0x18#8) = .ok (.ldStVx x)) ∧
  ∀ s : State, ∃ t, t.pc = s.pc + 2#16 ∧ ChangesOnly [.pc] s t ∧
    (∀ nnn, exec (.sys nnn) s = .next t) ∧ (∀ x, exec (.ldStVx x) s = .next t)

/-- R112: 1nnn. -/
def Obligations.JumpSetsPc : Prop :=
  ∀ nnn : Imm12, decodeWord (wordOfNnn 0x1#4 nnn) = .ok (.jp nnn) ∧
    ∀ s : State, ∃ t, exec (.jp nnn) s = .next t ∧ t.pc.toNat = nnn.toNat ∧ ChangesOnly [.pc] s t ∧
      (s.pc.toNat = nnn.toNat → t = s) ∧ (nnn = 0xFFF#12 → fetchWord t = .error (.fetchRange 0x0FFF#16))

/-- R113: 2nnn (D9). `STACK_DEPTH` unbounded is `none`. -/
def Obligations.CallPushesOrOverflows : Prop :=
  ∀ nnn : Imm12, decodeWord (wordOfNnn 0x2#4 nnn) = .ok (.call nnn) ∧
    ∀ s : State,
      (s.cfg.stackDepth = some s.sp → Raises (.call nnn) s (.stackOverflow s.pc)) ∧
      (s.cfg.stackDepth ≠ some s.sp → ∃ t, exec (.call nnn) s = .next t ∧ t.pc.toNat = nnn.toNat ∧
        t.sp = s.sp + 1 ∧ t.stackEntry s.sp = some (s.pc + 2#16) ∧ (∀ k < s.sp, t.stackEntry k = s.stackEntry k) ∧
        ChangesOnly [.stack, .pc] s t)

/-- R113's property: 2nnn followed at once by 00EE restores `PC` to the instruction after the call and the stack to
what it was; nothing else has changed. -/
def Obligations.CallThenReturn : Prop :=
  ∀ (nnn : Imm12) (s t : State), s.cfg.stackDepth ≠ some s.sp → exec (.call nnn) s = .next t →
    exec .ret t = .next { s with pc := s.pc + 2#16 }

/-- R114: Bnnn; the sum is not reduced modulo 4096 (D5). -/
def Obligations.JumpWithOffset : Prop :=
  ∀ nnn : Imm12, decodeWord (wordOfNnn 0xB#4 nnn) = .ok (.jpV0 nnn) ∧
    ∀ s : State, ∃ t, exec (.jpV0 nnn) s = .next t ∧ t.pc.toNat = (s.reg 0x0#4).toNat + nnn.toNat ∧
      t.pc.toNat ≤ 4350 ∧ ChangesOnly [.pc] s t ∧ (4094 < t.pc.toNat → fetchWord t = .error (.fetchRange t.pc))

/-- R221 (D25), R112: at the recommended end of a run a `Step` leaves the whole state unchanged; only the event itself
leaves the host's list (log entry 1). -/
def Obligations.EndedStepChangesNothing : Prop :=
  ∀ s u : State, TakesStep s u → Ended s → step s = .next u

/-! ### Skips (spec/41_skip.md) -/

/-- R120 to R124: the four skips on registers. -/
def Obligations.RegisterSkips : Prop :=
  ∀ (x y : Nibble) (nn : Byte),
    decodeWord (wordOfXnn 0x3#4 x nn) = .ok (.seImm x nn) ∧
    decodeWord (wordOfXnn 0x4#4 x nn) = .ok (.sneImm x nn) ∧
    decodeWord (wordOfNibbles 0x5#4 x y 0x0#4) = .ok (.seReg x y) ∧
    decodeWord (wordOfNibbles 0x9#4 x y 0x0#4) = .ok (.sneReg x y) ∧
    ∀ s : State,
      (∃ t, exec (.seImm x nn) s = .next t ∧ ChangesOnly [.pc] s t ∧
        t.pc = if (s.reg x).toNat = nn.toNat then s.pc + 4#16 else s.pc + 2#16) ∧
      (∃ t, exec (.sneImm x nn) s = .next t ∧ ChangesOnly [.pc] s t ∧
        t.pc = if (s.reg x).toNat = nn.toNat then s.pc + 2#16 else s.pc + 4#16) ∧
      (∃ t, exec (.seReg x y) s = .next t ∧ ChangesOnly [.pc] s t ∧
        t.pc = if (s.reg x).toNat = (s.reg y).toNat then s.pc + 4#16 else s.pc + 2#16) ∧
      (∃ t, exec (.sneReg x y) s = .next t ∧ ChangesOnly [.pc] s t ∧
        t.pc = if (s.reg x).toNat = (s.reg y).toNat then s.pc + 2#16 else s.pc + 4#16)

/-! ### Immediates (spec/42_immediate.md) -/

/-- R130: 6xnn. -/
def Obligations.LoadImmediate : Prop :=
  ∀ (x : Nibble) (nn : Byte), decodeWord (wordOfXnn 0x6#4 x nn) = .ok (.ldImm x nn) ∧
    ∀ s : State, ∃ t, exec (.ldImm x nn) s = .next t ∧ t.reg x = nn ∧ t.pc = s.pc + 2#16 ∧
      ChangesOnly [.reg x, .pc] s t

/-- R131: 7xnn, with the document's property that 6xnn then 7xnn' leaves `(nn + nn') mod 256`. -/
def Obligations.AddImmediate : Prop :=
  ∀ (x : Nibble) (nn : Byte), decodeWord (wordOfXnn 0x7#4 x nn) = .ok (.addImm x nn) ∧
    ∀ s : State, (∃ t, exec (.addImm x nn) s = .next t ∧ (t.reg x).toNat = ((s.reg x).toNat + nn.toNat) % 256 ∧
      t.pc = s.pc + 2#16 ∧ ChangesOnly [.reg x, .pc] s t) ∧
    ∀ (nn' : Byte) (t u : State), exec (.ldImm x nn) s = .next t → exec (.addImm x nn') t = .next u →
      (u.reg x).toNat = (nn.toNat + nn'.toNat) % 256

/-! ### ALU (spec/43_alu.md) -/

/-- R140 to R143: move, or, and, exclusive or; bit by bit. `V[15]` is not touched unless `x` is 15. -/
def Obligations.MoveAndLogic : Prop :=
  ∀ x y : Nibble,
    decodeWord (wordOfNibbles 0x8#4 x y 0x0#4) = .ok (.ldReg x y) ∧
    decodeWord (wordOfNibbles 0x8#4 x y 0x1#4) = .ok (.orReg x y) ∧
    decodeWord (wordOfNibbles 0x8#4 x y 0x2#4) = .ok (.andReg x y) ∧
    decodeWord (wordOfNibbles 0x8#4 x y 0x3#4) = .ok (.xorReg x y) ∧
    ∀ s : State,
      (∃ t, exec (.ldReg x y) s = .next t ∧ t.pc = s.pc + 2#16 ∧ ChangesOnly [.reg x, .pc] s t ∧
        ∀ k < 8, (t.reg x).getLsbD k = (s.reg y).getLsbD k) ∧
      (∃ t, exec (.orReg x y) s = .next t ∧ t.pc = s.pc + 2#16 ∧ ChangesOnly [.reg x, .pc] s t ∧
        ∀ k < 8, (t.reg x).getLsbD k = ((s.reg x).getLsbD k || (s.reg y).getLsbD k)) ∧
      (∃ t, exec (.andReg x y) s = .next t ∧ t.pc = s.pc + 2#16 ∧ ChangesOnly [.reg x, .pc] s t ∧
        ∀ k < 8, (t.reg x).getLsbD k = ((s.reg x).getLsbD k && (s.reg y).getLsbD k)) ∧
      (∃ t, exec (.xorReg x y) s = .next t ∧ t.pc = s.pc + 2#16 ∧ ChangesOnly [.reg x, .pc] s t ∧
        ∀ k < 8, (t.reg x).getLsbD k = ((s.reg x).getLsbD k ^^ (s.reg y).getLsbD k))

/-- R144: 8xy4 (D1). The result is written before the flag, so with `x = 15` the register ends holding the carry. -/
def Obligations.AddRegisters : Prop :=
  ∀ x y : Nibble, decodeWord (wordOfNibbles 0x8#4 x y 0x4#4) = .ok (.addReg x y) ∧
    ∀ s : State, ∃ t, exec (.addReg x y) s = .next t ∧
      (x ≠ vf → (t.reg x).toNat = ((s.reg x).toNat + (s.reg y).toNat) % 256) ∧
      t.reg vf = asFlag (255 < (s.reg x).toNat + (s.reg y).toNat) ∧
      t.pc = s.pc + 2#16 ∧ ChangesOnly [.reg x, .reg vf, .pc] s t

/-- R145: 8xy5. The flag `g` is written first; the difference reads the registers as they now are. -/
def Obligations.SubtractRegisters : Prop :=
  ∀ x y : Nibble, decodeWord (wordOfNibbles 0x8#4 x y 0x5#4) = .ok (.subReg x y) ∧
    ∀ (s : State) (g a b : Byte),
      g = asFlag (sint8 (s.reg x) > sint8 (s.reg y)) →
      a = (if x = vf then g else s.reg x) → b = (if y = vf then g else s.reg y) →
      ∃ t, exec (.subReg x y) s = .next t ∧ (t.reg x).toNat = (a.toNat + 256 - b.toNat) % 256 ∧
        (x ≠ vf → t.reg vf = g) ∧ t.pc = s.pc + 2#16 ∧ ChangesOnly [.reg x, .reg vf, .pc] s t

/-- R146: 8xy6. The bit shifted out is written first; the field `y` has no effect. -/
def Obligations.ShiftRight : Prop :=
  ∀ x y : Nibble, decodeWord (wordOfNibbles 0x8#4 x y 0x6#4) = .ok (.shr x y) ∧
    ∀ (s : State) (g a : Byte), g.toNat = (s.reg x).toNat % 2 → a = (if x = vf then g else s.reg x) →
      ∃ t, (∀ y', exec (.shr x y') s = .next t) ∧ (t.reg x).toNat = a.toNat / 2 ∧ (x ≠ vf → t.reg vf = g) ∧
        (x = vf → t.reg vf = 0#8) ∧ t.pc = s.pc + 2#16 ∧ ChangesOnly [.reg x, .reg vf, .pc] s t

/-- R147: 8xy7 (D3). The result is written before the flag, the flag is the sign of the wrapped difference. -/
def Obligations.ReverseSubtract : Prop :=
  ∀ x y : Nibble, decodeWord (wordOfNibbles 0x8#4 x y 0x7#4) = .ok (.subnReg x y) ∧
    ∀ (s : State) (diff : Byte), diff.toNat = ((s.reg y).toNat + 256 - (s.reg x).toNat) % 256 →
      ∃ t, exec (.subnReg x y) s = .next t ∧ (x ≠ vf → t.reg x = diff) ∧
        t.reg vf = asFlag (sint8 diff < 0) ∧ t.pc = s.pc + 2#16 ∧ ChangesOnly [.reg x, .reg vf, .pc] s t

/-- R148: 8xyE. The bit shifted out is written first; the field `y` has no effect. -/
def Obligations.ShiftLeft : Prop :=
  ∀ x y : Nibble, decodeWord (wordOfNibbles 0x8#4 x y 0xE#4) = .ok (.shl x y) ∧
    ∀ (s : State) (g a : Byte), g.toNat = (s.reg x).toNat / 128 → a = (if x = vf then g else s.reg x) →
      ∃ t, (∀ y', exec (.shl x y') s = .next t) ∧ (t.reg x).toNat = 2 * a.toNat % 256 ∧
        (x ≠ vf → t.reg vf = g) ∧ (x = vf → (t.reg vf).toNat = 2 * ((s.reg vf).toNat / 128)) ∧
        t.pc = s.pc + 2#16 ∧ ChangesOnly [.reg x, .reg vf, .pc] s t

/-- R150 (D2), the table of the cases in which register 15 is an operand: `a`, `b`, `f` are `V[x]`, `V[y]`, `V[15]` before
the step. -/
def Obligations.FlagAsOperandTable : Prop :=
  ∀ (x y : Nibble) (s : State), x ≠ vf → y ≠ vf →
    (∃ t, exec (.addReg vf y) s = .next t ∧ t.reg vf = asFlag (255 < (s.reg vf).toNat + (s.reg y).toNat)) ∧
    (∃ t, exec (.addReg x vf) s = .next t ∧ (t.reg x).toNat = ((s.reg x).toNat + (s.reg vf).toNat) % 256 ∧
      t.reg vf = asFlag (255 < (s.reg x).toNat + (s.reg vf).toNat)) ∧
    (∃ t, exec (.addReg vf vf) s = .next t ∧ t.reg vf = asFlag ((s.reg vf).getLsbD 7 = true)) ∧
    (∃ t, exec (.subReg vf y) s = .next t ∧
      t.reg vf = asFlag (sint8 (s.reg vf) > sint8 (s.reg y)) - s.reg y) ∧
    (∃ t, exec (.subReg x vf) s = .next t ∧ t.reg vf = asFlag (sint8 (s.reg x) > sint8 (s.reg vf)) ∧
      t.reg x = s.reg x - asFlag (sint8 (s.reg x) > sint8 (s.reg vf))) ∧
    (∃ t, exec (.subReg vf vf) s = .next t ∧ t.reg vf = 0#8) ∧
    (∀ y', ∃ t, exec (.shr vf y') s = .next t ∧ t.reg vf = 0#8) ∧
    (∃ t, exec (.subnReg vf y) s = .next t ∧ t.reg vf = asFlag ((s.reg y - s.reg vf).getLsbD 7 = true)) ∧
    (∃ t, exec (.subnReg x vf) s = .next t ∧ t.reg x = s.reg vf - s.reg x ∧
      t.reg vf = asFlag ((s.reg vf - s.reg x).getLsbD 7 = true)) ∧
    (∃ t, exec (.subnReg vf vf) s = .next t ∧ t.reg vf = 0#8) ∧
    (∀ y', ∃ t, exec (.shl vf y') s = .next t ∧ t.reg vf = if (s.reg vf).getLsbD 7 then 2#8 else 0#8)

/-! ### Index register, loads and stores (spec/44_index_memory.md) -/

/-- R160, R161 (D4), R162 (D20): Annn, Fx1E and Fx29 write `I` and `PC` only. -/
def Obligations.IndexRegisterWrites : Prop :=
  ∀ (x : Nibble) (nnn : Imm12),
    decodeWord (wordOfNnn 0xA#4 nnn) = .ok (.ldI nnn) ∧
    decodeWord (wordOfXnn 0xF#4 x 0x1E#8) = .ok (.addI x) ∧
    decodeWord (wordOfXnn 0xF#4 x 0x29#8) = .ok (.ldF x) ∧
    ∀ s : State,
      (∃ t, exec (.ldI nnn) s = .next t ∧ t.i.toNat = nnn.toNat ∧ t.pc = s.pc + 2#16 ∧
        ChangesOnly [.index, .pc] s t) ∧
      (∃ t, exec (.addI x) s = .next t ∧ t.i.toNat = (s.i.toNat + (s.reg x).toNat) % 65536 ∧
        t.pc = s.pc + 2#16 ∧ ChangesOnly [.index, .pc] s t) ∧
      (∃ t, exec (.ldF x) s = .next t ∧ t.i.toNat = (s.reg x).toNat * 5 ∧ t.pc = s.pc + 2#16 ∧
        ChangesOnly [.index, .pc] s t)

/-- R163: Fx33. The address stored to is `indexAddress s`, three bytes. That a stored byte reads back needs the
canonical form of memory, which is an invariant. -/
def Obligations.StoreDecimal : Prop :=
  ∀ x : Nibble, decodeWord (wordOfXnn 0xF#4 x 0x33#8) = .ok (.ldB x) ∧
    ∀ s : State,
      (indexAddress s < 80 → Raises (.ldB x) s (.fontWrite s.i)) ∧
      (∀ a : Word, 4093 < indexAddress s → a.toNat = max s.i.toNat 4096 → Raises (.ldB x) s (.dataRange a)) ∧
      (80 ≤ indexAddress s → indexAddress s ≤ 4093 → ∃ t, exec (.ldB x) s = .next t ∧ t.pc = s.pc + 2#16 ∧
        ChangesOnly (.pc :: bytesFrom (indexAddress s) 3) s t ∧
        (Memory.wf s.cfg s.mem →
          (t.readByte (indexAddress s)).toNat = (s.reg x).toNat / 100 ∧
          (t.readByte (indexAddress s + 1)).toNat = (s.reg x).toNat / 10 % 10 ∧
          (t.readByte (indexAddress s + 2)).toNat = (s.reg x).toNat % 10))

/-- R164: Fx55. The address stored to is `indexAddress s`, `x + 1` bytes. -/
def Obligations.StoreRegisters : Prop :=
  ∀ x : Nibble, decodeWord (wordOfXnn 0xF#4 x 0x55#8) = .ok (.stRegs x) ∧
    ∀ s : State,
      (indexAddress s < 80 → Raises (.stRegs x) s (.fontWrite s.i)) ∧
      (∀ a : Word, 80 ≤ indexAddress s → 4095 < indexAddress s + x.toNat → a.toNat = max s.i.toNat 4096 →
        Raises (.stRegs x) s (.dataRange a)) ∧
      (80 ≤ indexAddress s → indexAddress s + x.toNat ≤ 4095 → ∃ t, exec (.stRegs x) s = .next t ∧
        t.pc = s.pc + 2#16 ∧ t.i.toNat = s.i.toNat + x.toNat + 1 ∧
        ChangesOnly (.index :: .pc :: bytesFrom (indexAddress s) (x.toNat + 1)) s t ∧
        (Memory.wf s.cfg s.mem → ∀ r : Nibble, r.toNat ≤ x.toNat →
          t.readByte (indexAddress s + r.toNat) = s.reg r))

/-- R165: Fx65. -/
def Obligations.LoadRegisters : Prop :=
  ∀ x : Nibble, decodeWord (wordOfXnn 0xF#4 x 0x65#8) = .ok (.ldRegs x) ∧
    ∀ s : State,
      (∀ a : Word, 4095 < s.i.toNat + x.toNat → a.toNat = max s.i.toNat 4096 →
        Raises (.ldRegs x) s (.dataRange a)) ∧
      (s.i.toNat + x.toNat ≤ 4095 → ∃ t, exec (.ldRegs x) s = .next t ∧
        t.pc = s.pc + 2#16 ∧ t.i.toNat = s.i.toNat + x.toNat + 1 ∧
        (∀ r : Nibble, r.toNat ≤ x.toNat → t.reg r = s.readByte (s.i.toNat + r.toNat)) ∧
        (∀ r : Nibble, x.toNat < r.toNat → t.reg r = s.reg r) ∧
        ChangesOnly (.index :: .pc :: regsUpTo x) s t)

/-- R165's property: what Fx55 stored, Fx65 with the same `x` loads back through the same address, whatever the
registers hold by then. -/
def Obligations.StoreThenLoadRestores : Prop :=
  ∀ (x : Nibble) (s t : State) (v' : Vector Byte 16), Memory.wf s.cfg s.mem → 80 ≤ s.i.toNat →
    s.i.toNat + x.toNat ≤ 4095 → exec (.stRegs x) s = .next t →
    ∃ u, exec (.ldRegs x) { t with v := v', i := s.i } = .next u ∧
      (∀ r : Nibble, r.toNat ≤ x.toNat → u.reg r = s.reg r) ∧ u.i = t.i ∧
      ChangesOnly (.index :: .pc :: regsUpTo x) { t with v := v' } u

/-- R73: a store is seen by the very next fetch. If Fx55 with `x` at least 1 stores to the address the next
instruction is fetched from, the word fetched is `V[0]`, `V[1]`, big-endian. -/
def Obligations.StoreSeenByNextFetch : Prop :=
  ∀ (x : Nibble) (s t : State), Memory.wf s.cfg s.mem → 1 ≤ x.toNat → 80 ≤ s.i.toNat →
    s.i.toNat + x.toNat ≤ 4095 → s.i = s.pc + 2#16 → exec (.stRegs x) s = .next t →
    ∃ w : Word, fetchWord t = .ok w ∧ w.toNat = 256 * (s.reg 0x0#4).toNat + (s.reg 0x1#4).toNat

/-! ### Random (spec/45_random.md) -/

/-- R172: Cxnn writes the value of `Rand()` to `V[x]`; `nn` has no effect. The value of `Rand()` is `s.rand`; taking
it moves the model's own fields `rands` and `draws` on (log entry 2). -/
def Obligations.RandomByte : Prop :=
  ∀ (x : Nibble) (nn : Byte), decodeWord (wordOfXnn 0xC#4 x nn) = .ok (.rnd x nn) ∧
    ∀ s : State, ∃ t, (∀ nn', exec (.rnd x nn') s = .next t) ∧ t.reg x = s.rand ∧ t.pc = s.pc + 2#16 ∧
      ChangesOnly [.reg x, .pc, .rands, .draws] s t

/-- R171 (D12): no value of `Rand()` is excluded, whatever the state. The field `rands` is the model's (log entry 2). -/
def Obligations.EveryRandomByteOccurs : Prop :=
  ∀ (x : Nibble) (nn r : Byte) (s : State), ∃ t, exec (.rnd x nn) { s with rands := r :: s.rands } = .next t ∧
    t.reg x = r ∧ t.rands = s.rands

/-! ### Display (spec/46_display.md) -/

/-- R176: 00E0. -/
def Obligations.ClearDisplay : Prop :=
  decodeWord 0x00E0#16 = .ok .cls ∧
  ∀ s : State, ∃ t, exec .cls s = .next t ∧ (∀ cx cy, pixel t.fb cx cy = false) ∧ t.pc = s.pc + 2#16 ∧
    ChangesOnly [.fb, .pc] s t

/-- R180 with R177 to R179: Dxyn. Every pixel is exclusive-ored with the sprite bit over it, each pixel wrapping on
both axes; `V[15]` is 1 exactly when a lit pixel was under a sprite bit 1, also when `n = 0` (D21), and with `x` or `y` 15
the old `V[15]` is the coordinate. -/
def Obligations.DrawSprite : Prop :=
  ∀ x y n : Nibble, decodeWord (wordOfNibbles 0xD#4 x y n) = .ok (.drw x y n) ∧
    ∀ s : State,
      (∀ a : Word, 0 < n.toNat → 4096 < s.i.toNat + n.toNat → a.toNat = max s.i.toNat 4096 →
        Raises (.drw x y n) s (.dataRange a)) ∧
      (n.toNat = 0 ∨ s.i.toNat + n.toNat ≤ 4096 → ∃ t, exec (.drw x y n) s = .next t ∧ t.pc = s.pc + 2#16 ∧
        ChangesOnly [.fb, .reg vf, .pc] s t ∧
        (∀ cx < 64, ∀ cy < 32, (pixel t.fb cx cy = true ↔
          (pixel s.fb cx cy = true ↔ ¬ Covers s n.toNat (s.reg x).toNat (s.reg y).toNat cx cy))) ∧
        ((∃ cx < 64, ∃ cy < 32, pixel s.fb cx cy = true ∧
          Covers s n.toNat (s.reg x).toNat (s.reg y).toNat cx cy) → t.reg vf = 1#8) ∧
        ((¬ ∃ cx < 64, ∃ cy < 32, pixel s.fb cx cy = true ∧
          Covers s n.toNat (s.reg x).toNat (s.reg y).toNat cx cy) → t.reg vf = 0#8))

/-- R181: two identical Dxyn steps leave the display as it was before the first, and the second step's flag is 1
exactly when, after the first, a pixel under a sprite bit 1 was lit; and a row at column 60 lands in columns 60 to 63
and 0 to 3. -/
def Obligations.DrawTwiceRestores : Prop :=
  (∀ (x y n : Nibble) (s t u : State), n.toNat = 0 ∨ s.i.toNat + n.toNat ≤ 4096 →
    exec (.drw x y n) s = .next t → t.reg x = s.reg x → t.reg y = s.reg y → exec (.drw x y n) t = .next u →
    u.fb = s.fb ∧
    (u.reg vf = 1#8 ↔ ∃ cx < 64, ∃ cy < 32, pixel t.fb cx cy = true ∧
      Covers s n.toNat (s.reg x).toNat (s.reg y).toNat cx cy)) ∧
  (∀ (byte : Byte) (py : Nat) (f : FrameBuffer) (i : Nat), i < 8 →
    pixel (drawByte byte 60 py f).1 (if i < 4 then 60 + i else i - 4) py =
      (pixel f (if i < 4 then 60 + i else i - 4) py ^^ byte.getLsbD (7 - i)))

/-! ### Input (spec/47_input.md) -/

/-- R185 (D14) to R187: Ex9E and ExA1 compare all eight bits of `V[x]` with the latched code; with an empty latch no
key is pressed. -/
def Obligations.KeySkips : Prop :=
  ∀ x : Nibble,
    decodeWord (wordOfXnn 0xE#4 x 0x9E#8) = .ok (.skp x) ∧
    decodeWord (wordOfXnn 0xE#4 x 0xA1#8) = .ok (.sknp x) ∧
    ∀ s : State, ∃ t u, exec (.skp x) s = .next t ∧ exec (.sknp x) s = .next u ∧
      ChangesOnly [.pc] s t ∧ ChangesOnly [.pc] s u ∧
      ((∃ k, s.key = some k ∧ k.toNat = (s.reg x).toNat) → t.pc = s.pc + 4#16 ∧ u.pc = s.pc + 2#16) ∧
      ((¬ ∃ k, s.key = some k ∧ k.toNat = (s.reg x).toNat) → t.pc = s.pc + 2#16 ∧ u.pc = s.pc + 4#16)

/-- R188: Fx0A enters the wait and changes nothing else, whatever the latch holds (D15); the key event that ends the wait,
and no `Step`, tick or `none` event, completes it. -/
def Obligations.WaitForKey : Prop :=
  ∀ x : Nibble, decodeWord (wordOfXnn 0xF#4 x 0x0A#8) = .ok (.ldVxK x) ∧
    ∀ s : State, ∃ t, exec (.ldVxK x) s = .next t ∧ t.run = .waitingForKey x ∧ ChangesOnly [.run] s t ∧
      (∀ k : Nibble, (keyEvent (some k) t).run = .running ∧ (keyEvent (some k) t).pc = s.pc + 2#16 ∧
        ((keyEvent (some k) t).reg x).toNat = k.toNat) ∧
      (keyEvent none t).run = .waitingForKey x ∧ (timerTick t).run = .waitingForKey x ∧
      stepEvent t = .next t

/-- R189: `KeyEvent(k)` (D13). -/
def Obligations.KeyEventRule : Prop :=
  ∀ (s : State) (k : Option Nibble),
    (keyEvent k s).key = k ∧
    (∀ x c, s.run = .waitingForKey x → k = some c →
      ((keyEvent k s).reg x).toNat = c.toNat ∧ (keyEvent k s).pc = s.pc + 2#16 ∧ (keyEvent k s).run = .running ∧
      ChangesOnly [.key, .reg x, .pc, .run] s (keyEvent k s)) ∧
    ((∀ x, s.run ≠ .waitingForKey x) ∨ k = none → ChangesOnly [.key] s (keyEvent k s))

/-! ### Timer (spec/48_timer_sound.md) -/

/-- R196 and R197: Fx07 and Fx15. -/
def Obligations.TimerReadAndLoad : Prop :=
  ∀ x : Nibble,
    decodeWord (wordOfXnn 0xF#4 x 0x07#8) = .ok (.ldVxDt x) ∧
    decodeWord (wordOfXnn 0xF#4 x 0x15#8) = .ok (.ldDtVx x) ∧
    ∀ s : State,
      (∃ t, exec (.ldVxDt x) s = .next t ∧ t.reg x = s.dt ∧ t.pc = s.pc + 2#16 ∧ ChangesOnly [.reg x, .pc] s t) ∧
      (∃ t, exec (.ldDtVx x) s = .next t ∧ t.dt = s.reg x ∧ t.pc = s.pc + 2#16 ∧ ChangesOnly [.dt, .pc] s t)

/-- R198 (D11): `TimerTick` decrements `DT` to zero and changes nothing else, in every run state; and `DT` never increases
in any step but one that runs an Fx15. -/
def Obligations.TimerOnlyCountsDown : Prop :=
  (∀ s : State, (timerTick s).dt.toNat = s.dt.toNat - 1 ∧ ChangesOnly [.dt] s (timerTick s)) ∧
  ∀ s t : State, step s = .next t → s.dt.toNat < t.dt.toNat → ∃ x, AboutToRun s (.ldDtVx x)

/-- R195: after `m` ticks the timer reads `max(0, value - m)`, and the `m` steps that took the ticks have changed
nothing else but the model's list of events. -/
def Obligations.TimerAfterTicks : Prop :=
  ∀ (m : Nat) (s : State) (rest : List HostEvent), s.events = List.replicate m .timerTick ++ rest →
    ∃ t, Sys2Proof.core.run m s = .next t ∧ t.dt.toNat = s.dt.toNat - m ∧ t.events = rest ∧
      ChangesOnly [.dt, .events] s t

/-! ### Reset (spec/70_reset_and_hazards.md) -/

/-- R38 and R240 to R242: the state after `Reset(rom)` (D10, D19). -/
def Obligations.ResetRebuildsState : Prop :=
  ∀ (rom : List Byte) (s : State),
    (∀ r, (resetWith rom s).reg r = 0#8) ∧ (resetWith rom s).i = 0#16 ∧ (resetWith rom s).pc = 0x200#16 ∧
    (resetWith rom s).sp = 0 ∧ (∀ cx cy, pixel (resetWith rom s).fb cx cy = false) ∧
    (resetWith rom s).key = none ∧ (resetWith rom s).dt = 0#8 ∧
    (∀ a (h : a < 80), (resetWith rom s).readByte a = s.cfg.fontRom[a]) ∧
    (∀ a, 80 ≤ a → a < 0x200 → (resetWith rom s).readByte a = 0#8) ∧
    (rom.length ≤ 3584 → (resetWith rom s).run = .running ∧
      (∀ j (h : j < rom.length), (resetWith rom s).readByte (0x200 + j) = rom[j]) ∧
      (∀ a, 0x200 + rom.length ≤ a → (resetWith rom s).readByte a = 0#8)) ∧
    (3584 < rom.length →
      (∃ n : Word, n.toNat = min rom.length 65535 ∧ (resetWith rom s).run = .halted (.loadRange n)) ∧
      (∀ a, 0x200 ≤ a → (resetWith rom s).readByte a = 0#8))

/-- R244: nothing of the previous state survives a `Reset`. The parameters of R7 and the model's own fields are no
state of the machine's and stay (log entry 11). -/
def Obligations.ResetForgetsEverything : Prop :=
  ∀ (rom : List Byte) (s s' : State), s.cfg = s'.cfg →
    ChangesOnly [.events, .rands, .draws] (resetWith rom s) (resetWith rom s') ∧
    (resetWith rom s).mem = (resetWith rom s').mem

/-- R38: the reset state itself, with the default parameters of R7 and R66 (log entries 3 and 4), is the state after
`Reset` with an empty image. -/
def Obligations.ResetStateIsEmptyReset : Prop :=
  resetWith [] State.reset = State.reset ∧ State.reset.cfg.stackDepth = some 16 ∧
  State.reset.pc = 0x200#16 ∧ State.reset.run = .running ∧
  readBytes State.reset 0x00 5 = [0xF0#8, 0x90#8, 0x90#8, 0x90#8, 0xF0#8] ∧
  readBytes State.reset 0x4B 5 = [0xF0#8, 0x80#8, 0xF0#8, 0x80#8, 0x80#8]
end

