-- ==== Sys2Proof/Laws/Decode.lean ====
section
/-! SUPPORT. The fields of a composed word, and every word composed of its fields (spec/30_encoding.md R91). -/

namespace Sys2Proof


section
variable (op a b c : Nibble)

@[simp] theorem opField_wordOfNibbles : opField (wordOfNibbles op a b c) = op := by
  apply BitVec.eq_of_getLsbD_eq
  intro i hi
  unfold opField wordOfNibbles
  rw [BitVec.getLsbD_extractLsb']
  interval_cases i <;> (simp only [BitVec.getLsbD_append]; simp)

@[simp] theorem xField_wordOfNibbles : xField (wordOfNibbles op a b c) = a := by
  apply BitVec.eq_of_getLsbD_eq
  intro i hi
  unfold xField wordOfNibbles
  rw [BitVec.getLsbD_extractLsb']
  interval_cases i <;> (simp only [BitVec.getLsbD_append]; simp)

@[simp] theorem yField_wordOfNibbles : yField (wordOfNibbles op a b c) = b := by
  apply BitVec.eq_of_getLsbD_eq
  intro i hi
  unfold yField wordOfNibbles
  rw [BitVec.getLsbD_extractLsb']
  interval_cases i <;> (simp only [BitVec.getLsbD_append]; simp)

@[simp] theorem nField_wordOfNibbles : nField (wordOfNibbles op a b c) = c := by
  apply BitVec.eq_of_getLsbD_eq
  intro i hi
  unfold nField wordOfNibbles
  rw [BitVec.getLsbD_extractLsb']
  interval_cases i <;> (simp only [BitVec.getLsbD_append]; simp)

end

section
variable (op x : Nibble) (nn : Byte)

@[simp] theorem opField_wordOfXnn : opField (wordOfXnn op x nn) = op := by
  apply BitVec.eq_of_getLsbD_eq
  intro i hi
  unfold opField wordOfXnn
  rw [BitVec.getLsbD_extractLsb']
  interval_cases i <;> (simp only [BitVec.getLsbD_append]; simp)

@[simp] theorem xField_wordOfXnn : xField (wordOfXnn op x nn) = x := by
  apply BitVec.eq_of_getLsbD_eq
  intro i hi
  unfold xField wordOfXnn
  rw [BitVec.getLsbD_extractLsb']
  interval_cases i <;> (simp only [BitVec.getLsbD_append]; simp)

@[simp] theorem nnField_wordOfXnn : nnField (wordOfXnn op x nn) = nn := by
  apply BitVec.eq_of_getLsbD_eq
  intro i hi
  unfold nnField wordOfXnn
  rw [BitVec.getLsbD_extractLsb']
  interval_cases i <;> (simp only [BitVec.getLsbD_append]; simp)

end

section
variable (op : Nibble) (nnn : Imm12)

@[simp] theorem opField_wordOfNnn : opField (wordOfNnn op nnn) = op := by
  apply BitVec.eq_of_getLsbD_eq
  intro i hi
  unfold opField wordOfNnn
  rw [BitVec.getLsbD_extractLsb']
  interval_cases i <;> (simp only [BitVec.getLsbD_append]; simp)

@[simp] theorem nnnField_wordOfNnn : nnnField (wordOfNnn op nnn) = nnn := by
  apply BitVec.eq_of_getLsbD_eq
  intro i hi
  unfold nnnField wordOfNnn
  rw [BitVec.getLsbD_extractLsb']
  interval_cases i <;> (simp only [BitVec.getLsbD_append]; simp)

end

/-! ### Every word is composed of its fields -/

theorem wordOfNibbles_fields (w : Word) :
    wordOfNibbles (opField w) (xField w) (yField w) (nField w) = w := by
  apply BitVec.eq_of_getLsbD_eq
  intro i hi
  unfold wordOfNibbles opField xField yField nField
  interval_cases i <;> (simp only [BitVec.getLsbD_append]; simp)

theorem wordOfXnn_fields (w : Word) : wordOfXnn (opField w) (xField w) (nnField w) = w := by
  apply BitVec.eq_of_getLsbD_eq
  intro i hi
  unfold wordOfXnn opField xField nnField
  interval_cases i <;> (simp only [BitVec.getLsbD_append]; simp)

theorem wordOfNnn_fields (w : Word) : wordOfNnn (opField w) (nnnField w) = w := by
  apply BitVec.eq_of_getLsbD_eq
  intro i hi
  unfold wordOfNnn opField nnnField
  interval_cases i <;> (simp only [BitVec.getLsbD_append]; simp)

/-- A word is determined by its four nibbles. -/
theorem word_cases (w : Word) : ∃ op a b c : Nibble, w = wordOfNibbles op a b c :=
  ⟨_, _, _, _, (wordOfNibbles_fields w).symm⟩

/-- Storing a word's two bytes and reading them back big-endian gives the word (R61). -/
@[simp] theorem wordOfBytes_bytesOfWord (w : Word) : wordOfBytes (w.extractLsb' 8 8) (w.extractLsb' 0 8) = w := by
  apply BitVec.eq_of_getLsbD_eq
  intro i hi
  unfold wordOfBytes
  interval_cases i <;> (simp only [BitVec.getLsbD_append]; simp)

/-! ### Masks (R97) and the cases of a nibble -/

/-- Two words are equal exactly when their four nibbles are. -/
theorem wordOfNibbles_inj (op a b c op' a' b' c' : Nibble) :
    wordOfNibbles op a b c = wordOfNibbles op' a' b' c' ↔ op = op' ∧ a = a' ∧ b = b' ∧ c = c' := by
  constructor
  · intro h
    exact ⟨by simpa using congrArg opField h, by simpa using congrArg xField h, by simpa using congrArg yField h,
      by simpa using congrArg nField h⟩
  · rintro ⟨rfl, rfl, rfl, rfl⟩
    rfl

/-- The mask of a row with one fixed nibble. -/
theorem wordOfNibbles_and_F000 (op a b c : Nibble) :
    wordOfNibbles op a b c &&& 0xF000#16 = wordOfNibbles op 0#4 0#4 0#4 := by
  apply BitVec.eq_of_getLsbD_eq
  intro i hi
  unfold wordOfNibbles
  interval_cases i <;> (simp only [BitVec.getLsbD_and, BitVec.getLsbD_append]; simp)

/-- The mask of a row with its first and last nibble fixed. -/
theorem wordOfNibbles_and_F00F (op a b c : Nibble) :
    wordOfNibbles op a b c &&& 0xF00F#16 = wordOfNibbles op 0#4 0#4 c := by
  apply BitVec.eq_of_getLsbD_eq
  intro i hi
  unfold wordOfNibbles
  interval_cases i <;> (simp only [BitVec.getLsbD_and, BitVec.getLsbD_append]; simp)

/-- The mask of a row with its first nibble and its low byte fixed. -/
theorem wordOfNibbles_and_F0FF (op a b c : Nibble) :
    wordOfNibbles op a b c &&& 0xF0FF#16 = wordOfNibbles op 0#4 b c := by
  apply BitVec.eq_of_getLsbD_eq
  intro i hi
  unfold wordOfNibbles
  interval_cases i <;> (simp only [BitVec.getLsbD_and, BitVec.getLsbD_append]; simp)

/-- The low byte is the last two nibbles. -/
theorem nnField_wordOfNibbles (op a b c : Nibble) : nnField (wordOfNibbles op a b c) = b ++ c := by
  apply BitVec.eq_of_getLsbD_eq
  intro i hi
  unfold nnField wordOfNibbles
  rw [BitVec.getLsbD_extractLsb']
  interval_cases i <;> (simp only [BitVec.getLsbD_append]; simp)

/-- The sixteen nibbles. -/
theorem nibble_cases : ∀ op : Nibble, op ∈ [0#4, 1#4, 2#4, 3#4, 4#4, 5#4, 6#4, 7#4, 8#4, 9#4, 10#4, 11#4, 12#4, 13#4,
    14#4, 15#4] := by decide

/-- The operation field that is none of 0 to E is F. -/
theorem nibble_eq_F {op : Nibble} (h : op ∉ [0#4, 1#4, 2#4, 3#4, 4#4, 5#4, 6#4, 7#4, 8#4, 9#4, 10#4, 11#4, 12#4, 13#4,
    14#4]) : op = 15#4 := by
  revert op
  decide

end Sys2Proof
end

