-- ==== Sys2Proof/Laws/State.lean ====
section
/-! SUPPORT. One lemma per field per update of the state, each true by definition, so that no later proof unfolds a
record update; then the register and byte reads over each update, and the frame of each update in the vocabulary of
Safety.lean. -/

namespace Sys2Proof.Machine

variable (s : State)

/-! ### `setReg` -/

@[simp] theorem State.setReg_v (x : Nibble) (b : Byte) : (s.setReg x b).v = s.v.set x.toNat b x.isLt := rfl
@[simp] theorem State.setReg_i (x : Nibble) (b : Byte) : (s.setReg x b).i = s.i := rfl
@[simp] theorem State.setReg_pc (x : Nibble) (b : Byte) : (s.setReg x b).pc = s.pc := rfl
@[simp] theorem State.setReg_stack (x : Nibble) (b : Byte) : (s.setReg x b).stack = s.stack := rfl
@[simp] theorem State.setReg_mem (x : Nibble) (b : Byte) : (s.setReg x b).mem = s.mem := rfl
@[simp] theorem State.setReg_fb (x : Nibble) (b : Byte) : (s.setReg x b).fb = s.fb := rfl
@[simp] theorem State.setReg_key (x : Nibble) (b : Byte) : (s.setReg x b).key = s.key := rfl
@[simp] theorem State.setReg_dt (x : Nibble) (b : Byte) : (s.setReg x b).dt = s.dt := rfl
@[simp] theorem State.setReg_run (x : Nibble) (b : Byte) : (s.setReg x b).run = s.run := rfl
@[simp] theorem State.setReg_cfg (x : Nibble) (b : Byte) : (s.setReg x b).cfg = s.cfg := rfl
@[simp] theorem State.setReg_events (x : Nibble) (b : Byte) : (s.setReg x b).events = s.events := rfl
@[simp] theorem State.setReg_rands (x : Nibble) (b : Byte) : (s.setReg x b).rands = s.rands := rfl
@[simp] theorem State.setReg_draws (x : Nibble) (b : Byte) : (s.setReg x b).draws = s.draws := rfl
@[simp] theorem State.setReg_readByte (x : Nibble) (b : Byte) (c : Nat) : (s.setReg x b).readByte c = s.readByte c := rfl

/-! ### `setI` -/

@[simp] theorem State.setI_v (a : Word) : (s.setI a).v = s.v := rfl
@[simp] theorem State.setI_i (a : Word) : (s.setI a).i = a := rfl
@[simp] theorem State.setI_pc (a : Word) : (s.setI a).pc = s.pc := rfl
@[simp] theorem State.setI_stack (a : Word) : (s.setI a).stack = s.stack := rfl
@[simp] theorem State.setI_mem (a : Word) : (s.setI a).mem = s.mem := rfl
@[simp] theorem State.setI_fb (a : Word) : (s.setI a).fb = s.fb := rfl
@[simp] theorem State.setI_key (a : Word) : (s.setI a).key = s.key := rfl
@[simp] theorem State.setI_dt (a : Word) : (s.setI a).dt = s.dt := rfl
@[simp] theorem State.setI_run (a : Word) : (s.setI a).run = s.run := rfl
@[simp] theorem State.setI_cfg (a : Word) : (s.setI a).cfg = s.cfg := rfl
@[simp] theorem State.setI_events (a : Word) : (s.setI a).events = s.events := rfl
@[simp] theorem State.setI_rands (a : Word) : (s.setI a).rands = s.rands := rfl
@[simp] theorem State.setI_draws (a : Word) : (s.setI a).draws = s.draws := rfl
@[simp] theorem State.setI_reg (a : Word) (r : Nibble) : (s.setI a).reg r = s.reg r := rfl
@[simp] theorem State.setI_readByte (a : Word) (c : Nat) : (s.setI a).readByte c = s.readByte c := rfl

/-! ### `setPc` -/

@[simp] theorem State.setPc_v (a : Word) : (s.setPc a).v = s.v := rfl
@[simp] theorem State.setPc_i (a : Word) : (s.setPc a).i = s.i := rfl
@[simp] theorem State.setPc_pc (a : Word) : (s.setPc a).pc = a := rfl
@[simp] theorem State.setPc_stack (a : Word) : (s.setPc a).stack = s.stack := rfl
@[simp] theorem State.setPc_mem (a : Word) : (s.setPc a).mem = s.mem := rfl
@[simp] theorem State.setPc_fb (a : Word) : (s.setPc a).fb = s.fb := rfl
@[simp] theorem State.setPc_key (a : Word) : (s.setPc a).key = s.key := rfl
@[simp] theorem State.setPc_dt (a : Word) : (s.setPc a).dt = s.dt := rfl
@[simp] theorem State.setPc_run (a : Word) : (s.setPc a).run = s.run := rfl
@[simp] theorem State.setPc_cfg (a : Word) : (s.setPc a).cfg = s.cfg := rfl
@[simp] theorem State.setPc_events (a : Word) : (s.setPc a).events = s.events := rfl
@[simp] theorem State.setPc_rands (a : Word) : (s.setPc a).rands = s.rands := rfl
@[simp] theorem State.setPc_draws (a : Word) : (s.setPc a).draws = s.draws := rfl
@[simp] theorem State.setPc_reg (a : Word) (r : Nibble) : (s.setPc a).reg r = s.reg r := rfl
@[simp] theorem State.setPc_readByte (a : Word) (c : Nat) : (s.setPc a).readByte c = s.readByte c := rfl

/-! ### `advance` -/

@[simp] theorem State.advance_v : (s.advance).v = s.v := rfl
@[simp] theorem State.advance_i : (s.advance).i = s.i := rfl
@[simp] theorem State.advance_pc : (s.advance).pc = s.pc + 2#16 := rfl
@[simp] theorem State.advance_stack : (s.advance).stack = s.stack := rfl
@[simp] theorem State.advance_mem : (s.advance).mem = s.mem := rfl
@[simp] theorem State.advance_fb : (s.advance).fb = s.fb := rfl
@[simp] theorem State.advance_key : (s.advance).key = s.key := rfl
@[simp] theorem State.advance_dt : (s.advance).dt = s.dt := rfl
@[simp] theorem State.advance_run : (s.advance).run = s.run := rfl
@[simp] theorem State.advance_cfg : (s.advance).cfg = s.cfg := rfl
@[simp] theorem State.advance_events : (s.advance).events = s.events := rfl
@[simp] theorem State.advance_rands : (s.advance).rands = s.rands := rfl
@[simp] theorem State.advance_draws : (s.advance).draws = s.draws := rfl
@[simp] theorem State.advance_reg (r : Nibble) : (s.advance).reg r = s.reg r := rfl
@[simp] theorem State.advance_readByte (c : Nat) : (s.advance).readByte c = s.readByte c := rfl

/-! ### `writeByte` -/

@[simp] theorem State.writeByte_v (a : Nat) (b : Byte) : (s.writeByte a b).v = s.v := rfl
@[simp] theorem State.writeByte_i (a : Nat) (b : Byte) : (s.writeByte a b).i = s.i := rfl
@[simp] theorem State.writeByte_pc (a : Nat) (b : Byte) : (s.writeByte a b).pc = s.pc := rfl
@[simp] theorem State.writeByte_stack (a : Nat) (b : Byte) : (s.writeByte a b).stack = s.stack := rfl
@[simp] theorem State.writeByte_mem (a : Nat) (b : Byte) : (s.writeByte a b).mem = Memory.write s.cfg s.mem a b := rfl
@[simp] theorem State.writeByte_fb (a : Nat) (b : Byte) : (s.writeByte a b).fb = s.fb := rfl
@[simp] theorem State.writeByte_key (a : Nat) (b : Byte) : (s.writeByte a b).key = s.key := rfl
@[simp] theorem State.writeByte_dt (a : Nat) (b : Byte) : (s.writeByte a b).dt = s.dt := rfl
@[simp] theorem State.writeByte_run (a : Nat) (b : Byte) : (s.writeByte a b).run = s.run := rfl
@[simp] theorem State.writeByte_cfg (a : Nat) (b : Byte) : (s.writeByte a b).cfg = s.cfg := rfl
@[simp] theorem State.writeByte_events (a : Nat) (b : Byte) : (s.writeByte a b).events = s.events := rfl
@[simp] theorem State.writeByte_rands (a : Nat) (b : Byte) : (s.writeByte a b).rands = s.rands := rfl
@[simp] theorem State.writeByte_draws (a : Nat) (b : Byte) : (s.writeByte a b).draws = s.draws := rfl
@[simp] theorem State.writeByte_reg (a : Nat) (b : Byte) (r : Nibble) : (s.writeByte a b).reg r = s.reg r := rfl

/-! ### `push` -/

@[simp] theorem State.push_v (a : Word) : (s.push a).v = s.v := rfl
@[simp] theorem State.push_i (a : Word) : (s.push a).i = s.i := rfl
@[simp] theorem State.push_pc (a : Word) : (s.push a).pc = s.pc := rfl
@[simp] theorem State.push_stack (a : Word) : (s.push a).stack = a :: s.stack := rfl
@[simp] theorem State.push_mem (a : Word) : (s.push a).mem = s.mem := rfl
@[simp] theorem State.push_fb (a : Word) : (s.push a).fb = s.fb := rfl
@[simp] theorem State.push_key (a : Word) : (s.push a).key = s.key := rfl
@[simp] theorem State.push_dt (a : Word) : (s.push a).dt = s.dt := rfl
@[simp] theorem State.push_run (a : Word) : (s.push a).run = s.run := rfl
@[simp] theorem State.push_cfg (a : Word) : (s.push a).cfg = s.cfg := rfl
@[simp] theorem State.push_events (a : Word) : (s.push a).events = s.events := rfl
@[simp] theorem State.push_rands (a : Word) : (s.push a).rands = s.rands := rfl
@[simp] theorem State.push_draws (a : Word) : (s.push a).draws = s.draws := rfl
@[simp] theorem State.push_reg (a : Word) (r : Nibble) : (s.push a).reg r = s.reg r := rfl
@[simp] theorem State.push_readByte (a : Word) (c : Nat) : (s.push a).readByte c = s.readByte c := rfl

/-! ### `setDt` -/

@[simp] theorem State.setDt_v (b : Byte) : (s.setDt b).v = s.v := rfl
@[simp] theorem State.setDt_i (b : Byte) : (s.setDt b).i = s.i := rfl
@[simp] theorem State.setDt_pc (b : Byte) : (s.setDt b).pc = s.pc := rfl
@[simp] theorem State.setDt_stack (b : Byte) : (s.setDt b).stack = s.stack := rfl
@[simp] theorem State.setDt_mem (b : Byte) : (s.setDt b).mem = s.mem := rfl
@[simp] theorem State.setDt_fb (b : Byte) : (s.setDt b).fb = s.fb := rfl
@[simp] theorem State.setDt_key (b : Byte) : (s.setDt b).key = s.key := rfl
@[simp] theorem State.setDt_dt (b : Byte) : (s.setDt b).dt = b := rfl
@[simp] theorem State.setDt_run (b : Byte) : (s.setDt b).run = s.run := rfl
@[simp] theorem State.setDt_cfg (b : Byte) : (s.setDt b).cfg = s.cfg := rfl
@[simp] theorem State.setDt_events (b : Byte) : (s.setDt b).events = s.events := rfl
@[simp] theorem State.setDt_rands (b : Byte) : (s.setDt b).rands = s.rands := rfl
@[simp] theorem State.setDt_draws (b : Byte) : (s.setDt b).draws = s.draws := rfl
@[simp] theorem State.setDt_reg (b : Byte) (r : Nibble) : (s.setDt b).reg r = s.reg r := rfl
@[simp] theorem State.setDt_readByte (b : Byte) (c : Nat) : (s.setDt b).readByte c = s.readByte c := rfl

/-! ### `setKey` -/

@[simp] theorem State.setKey_v (k : Option Nibble) : (s.setKey k).v = s.v := rfl
@[simp] theorem State.setKey_i (k : Option Nibble) : (s.setKey k).i = s.i := rfl
@[simp] theorem State.setKey_pc (k : Option Nibble) : (s.setKey k).pc = s.pc := rfl
@[simp] theorem State.setKey_stack (k : Option Nibble) : (s.setKey k).stack = s.stack := rfl
@[simp] theorem State.setKey_mem (k : Option Nibble) : (s.setKey k).mem = s.mem := rfl
@[simp] theorem State.setKey_fb (k : Option Nibble) : (s.setKey k).fb = s.fb := rfl
@[simp] theorem State.setKey_key (k : Option Nibble) : (s.setKey k).key = k := rfl
@[simp] theorem State.setKey_dt (k : Option Nibble) : (s.setKey k).dt = s.dt := rfl
@[simp] theorem State.setKey_run (k : Option Nibble) : (s.setKey k).run = s.run := rfl
@[simp] theorem State.setKey_cfg (k : Option Nibble) : (s.setKey k).cfg = s.cfg := rfl
@[simp] theorem State.setKey_events (k : Option Nibble) : (s.setKey k).events = s.events := rfl
@[simp] theorem State.setKey_rands (k : Option Nibble) : (s.setKey k).rands = s.rands := rfl
@[simp] theorem State.setKey_draws (k : Option Nibble) : (s.setKey k).draws = s.draws := rfl
@[simp] theorem State.setKey_reg (k : Option Nibble) (r : Nibble) : (s.setKey k).reg r = s.reg r := rfl
@[simp] theorem State.setKey_readByte (k : Option Nibble) (c : Nat) : (s.setKey k).readByte c = s.readByte c := rfl

/-! ### `setRun` -/

@[simp] theorem State.setRun_v (st : RunState) : (s.setRun st).v = s.v := rfl
@[simp] theorem State.setRun_i (st : RunState) : (s.setRun st).i = s.i := rfl
@[simp] theorem State.setRun_pc (st : RunState) : (s.setRun st).pc = s.pc := rfl
@[simp] theorem State.setRun_stack (st : RunState) : (s.setRun st).stack = s.stack := rfl
@[simp] theorem State.setRun_mem (st : RunState) : (s.setRun st).mem = s.mem := rfl
@[simp] theorem State.setRun_fb (st : RunState) : (s.setRun st).fb = s.fb := rfl
@[simp] theorem State.setRun_key (st : RunState) : (s.setRun st).key = s.key := rfl
@[simp] theorem State.setRun_dt (st : RunState) : (s.setRun st).dt = s.dt := rfl
@[simp] theorem State.setRun_run (st : RunState) : (s.setRun st).run = st := rfl
@[simp] theorem State.setRun_cfg (st : RunState) : (s.setRun st).cfg = s.cfg := rfl
@[simp] theorem State.setRun_events (st : RunState) : (s.setRun st).events = s.events := rfl
@[simp] theorem State.setRun_rands (st : RunState) : (s.setRun st).rands = s.rands := rfl
@[simp] theorem State.setRun_draws (st : RunState) : (s.setRun st).draws = s.draws := rfl
@[simp] theorem State.setRun_reg (st : RunState) (r : Nibble) : (s.setRun st).reg r = s.reg r := rfl
@[simp] theorem State.setRun_readByte (st : RunState) (c : Nat) : (s.setRun st).readByte c = s.readByte c := rfl

/-! ### `setFb` -/

@[simp] theorem State.setFb_v (f : FrameBuffer) : (s.setFb f).v = s.v := rfl
@[simp] theorem State.setFb_i (f : FrameBuffer) : (s.setFb f).i = s.i := rfl
@[simp] theorem State.setFb_pc (f : FrameBuffer) : (s.setFb f).pc = s.pc := rfl
@[simp] theorem State.setFb_stack (f : FrameBuffer) : (s.setFb f).stack = s.stack := rfl
@[simp] theorem State.setFb_mem (f : FrameBuffer) : (s.setFb f).mem = s.mem := rfl
@[simp] theorem State.setFb_fb (f : FrameBuffer) : (s.setFb f).fb = f := rfl
@[simp] theorem State.setFb_key (f : FrameBuffer) : (s.setFb f).key = s.key := rfl
@[simp] theorem State.setFb_dt (f : FrameBuffer) : (s.setFb f).dt = s.dt := rfl
@[simp] theorem State.setFb_run (f : FrameBuffer) : (s.setFb f).run = s.run := rfl
@[simp] theorem State.setFb_cfg (f : FrameBuffer) : (s.setFb f).cfg = s.cfg := rfl
@[simp] theorem State.setFb_events (f : FrameBuffer) : (s.setFb f).events = s.events := rfl
@[simp] theorem State.setFb_rands (f : FrameBuffer) : (s.setFb f).rands = s.rands := rfl
@[simp] theorem State.setFb_draws (f : FrameBuffer) : (s.setFb f).draws = s.draws := rfl
@[simp] theorem State.setFb_reg (f : FrameBuffer) (r : Nibble) : (s.setFb f).reg r = s.reg r := rfl
@[simp] theorem State.setFb_readByte (f : FrameBuffer) (c : Nat) : (s.setFb f).readByte c = s.readByte c := rfl

/-! ### `setEvents` -/

@[simp] theorem State.setEvents_v (es : List HostEvent) : (s.setEvents es).v = s.v := rfl
@[simp] theorem State.setEvents_i (es : List HostEvent) : (s.setEvents es).i = s.i := rfl
@[simp] theorem State.setEvents_pc (es : List HostEvent) : (s.setEvents es).pc = s.pc := rfl
@[simp] theorem State.setEvents_stack (es : List HostEvent) : (s.setEvents es).stack = s.stack := rfl
@[simp] theorem State.setEvents_mem (es : List HostEvent) : (s.setEvents es).mem = s.mem := rfl
@[simp] theorem State.setEvents_fb (es : List HostEvent) : (s.setEvents es).fb = s.fb := rfl
@[simp] theorem State.setEvents_key (es : List HostEvent) : (s.setEvents es).key = s.key := rfl
@[simp] theorem State.setEvents_dt (es : List HostEvent) : (s.setEvents es).dt = s.dt := rfl
@[simp] theorem State.setEvents_run (es : List HostEvent) : (s.setEvents es).run = s.run := rfl
@[simp] theorem State.setEvents_cfg (es : List HostEvent) : (s.setEvents es).cfg = s.cfg := rfl
@[simp] theorem State.setEvents_events (es : List HostEvent) : (s.setEvents es).events = es := rfl
@[simp] theorem State.setEvents_rands (es : List HostEvent) : (s.setEvents es).rands = s.rands := rfl
@[simp] theorem State.setEvents_draws (es : List HostEvent) : (s.setEvents es).draws = s.draws := rfl
@[simp] theorem State.setEvents_reg (es : List HostEvent) (r : Nibble) : (s.setEvents es).reg r = s.reg r := rfl
@[simp] theorem State.setEvents_readByte (es : List HostEvent) (c : Nat) : (s.setEvents es).readByte c = s.readByte c := rfl

/-! ### `drawn` -/

@[simp] theorem State.drawn_v : (s.drawn).v = s.v := rfl
@[simp] theorem State.drawn_i : (s.drawn).i = s.i := rfl
@[simp] theorem State.drawn_pc : (s.drawn).pc = s.pc := rfl
@[simp] theorem State.drawn_stack : (s.drawn).stack = s.stack := rfl
@[simp] theorem State.drawn_mem : (s.drawn).mem = s.mem := rfl
@[simp] theorem State.drawn_fb : (s.drawn).fb = s.fb := rfl
@[simp] theorem State.drawn_key : (s.drawn).key = s.key := rfl
@[simp] theorem State.drawn_dt : (s.drawn).dt = s.dt := rfl
@[simp] theorem State.drawn_run : (s.drawn).run = s.run := rfl
@[simp] theorem State.drawn_cfg : (s.drawn).cfg = s.cfg := rfl
@[simp] theorem State.drawn_events : (s.drawn).events = s.events := rfl
@[simp] theorem State.drawn_rands : (s.drawn).rands = s.rands.tail := rfl
@[simp] theorem State.drawn_draws : (s.drawn).draws = s.draws + 1 := rfl
@[simp] theorem State.drawn_reg (r : Nibble) : (s.drawn).reg r = s.reg r := rfl
@[simp] theorem State.drawn_readByte (c : Nat) : (s.drawn).readByte c = s.readByte c := rfl

/-! ### `bumpI` -/

@[simp] theorem State.bumpI_v (k : Nat) : (s.bumpI k).v = s.v := rfl
@[simp] theorem State.bumpI_i (k : Nat) : (s.bumpI k).i = s.i + BitVec.ofNat 16 k := rfl
@[simp] theorem State.bumpI_pc (k : Nat) : (s.bumpI k).pc = s.pc := rfl
@[simp] theorem State.bumpI_stack (k : Nat) : (s.bumpI k).stack = s.stack := rfl
@[simp] theorem State.bumpI_mem (k : Nat) : (s.bumpI k).mem = s.mem := rfl
@[simp] theorem State.bumpI_fb (k : Nat) : (s.bumpI k).fb = s.fb := rfl
@[simp] theorem State.bumpI_key (k : Nat) : (s.bumpI k).key = s.key := rfl
@[simp] theorem State.bumpI_dt (k : Nat) : (s.bumpI k).dt = s.dt := rfl
@[simp] theorem State.bumpI_run (k : Nat) : (s.bumpI k).run = s.run := rfl
@[simp] theorem State.bumpI_cfg (k : Nat) : (s.bumpI k).cfg = s.cfg := rfl
@[simp] theorem State.bumpI_events (k : Nat) : (s.bumpI k).events = s.events := rfl
@[simp] theorem State.bumpI_rands (k : Nat) : (s.bumpI k).rands = s.rands := rfl
@[simp] theorem State.bumpI_draws (k : Nat) : (s.bumpI k).draws = s.draws := rfl
@[simp] theorem State.bumpI_reg (k : Nat) (r : Nibble) : (s.bumpI k).reg r = s.reg r := rfl
@[simp] theorem State.bumpI_readByte (k : Nat) (c : Nat) : (s.bumpI k).readByte c = s.readByte c := rfl

/-! ### Registers read after write -/

@[simp] theorem State.setReg_reg (x : Nibble) (b : Byte) (r : Nibble) :
    (s.setReg x b).reg r = if x = r then b else s.reg r := by
  simp only [State.setReg, State.reg, Vector.getElem_set, BitVec.toNat_inj]

theorem State.setReg_reg_self (x : Nibble) (b : Byte) : (s.setReg x b).reg x = b := by simp

theorem State.setReg_reg_other {x r : Nibble} (b : Byte) (h : x ≠ r) : (s.setReg x b).reg r = s.reg r := by simp [h]

/-! ### Skips -/

theorem State.skipIf_eq (c : Bool) : s.skipIf c = s.setPc (s.pc + if c then 4#16 else 2#16) := by
  cases c <;> rfl

/-! ### Fetching sees only memory and the program counter -/

theorem fetchWord_congr {s t : State} (hp : t.pc = s.pc) (hm : ∀ a, t.readByte a = s.readByte a) :
    fetchWord t = fetchWord s := by
  simp only [fetchWord, hp, hm]

@[simp] theorem fetchWord_setRun (r : RunState) : fetchWord (s.setRun r) = fetchWord s := rfl
@[simp] theorem fetchWord_setKey (k : Option Nibble) : fetchWord (s.setKey k) = fetchWord s := rfl
@[simp] theorem fetchWord_setDt (b : Byte) : fetchWord (s.setDt b) = fetchWord s := rfl
@[simp] theorem fetchWord_setEvents (es : List HostEvent) : fetchWord (s.setEvents es) = fetchWord s := rfl

/-! ### Frames -/

theorem ChangesOnly.refl (parts : List Part) : ChangesOnly parts s s := by
  intro p _
  cases p <;> rfl

theorem ChangesOnly.mono {ps qs : List Part} {s t : State} (hsub : ∀ p ∈ ps, p ∈ qs) (h : ChangesOnly ps s t) :
    ChangesOnly qs s t := fun p hp => h p fun hq => hp (hsub p hq)

theorem Unchanged.trans {p : Part} {s t u : State} (h : Unchanged p s t) (h' : Unchanged p t u) :
    Unchanged p s u := by
  cases p <;> exact Eq.trans h' h

theorem ChangesOnly.trans {ps : List Part} {s t u : State} (h : ChangesOnly ps s t) (h' : ChangesOnly ps t u) :
    ChangesOnly ps s u := fun p hp => (h p hp).trans (h' p hp)

theorem State.setReg_changesOnly (x : Nibble) (b : Byte) : ChangesOnly [.reg x] s (s.setReg x b) := by
  intro p hp
  cases p with
  | reg r =>
    have hx : x ≠ r := by
      intro e
      subst e
      simp at hp
    exact s.setReg_reg_other b hx
  | _ => rfl

theorem State.setI_changesOnly (a : Word) : ChangesOnly [.index] s (s.setI a) := by
  intro p hp
  cases p <;> first | rfl | simp at hp

theorem State.setPc_changesOnly (a : Word) : ChangesOnly [.pc] s (s.setPc a) := by
  intro p hp
  cases p <;> first | rfl | simp at hp

theorem State.setDt_changesOnly (b : Byte) : ChangesOnly [.dt] s (s.setDt b) := by
  intro p hp
  cases p <;> first | rfl | simp at hp

theorem State.setKey_changesOnly (k : Option Nibble) : ChangesOnly [.key] s (s.setKey k) := by
  intro p hp
  cases p <;> first | rfl | simp at hp

theorem State.setRun_changesOnly (r : RunState) : ChangesOnly [.run] s (s.setRun r) := by
  intro p hp
  cases p <;> first | rfl | simp at hp

theorem State.setFb_changesOnly (f : FrameBuffer) : ChangesOnly [.fb] s (s.setFb f) := by
  intro p hp
  cases p <;> first | rfl | simp at hp

theorem State.push_changesOnly (a : Word) : ChangesOnly [.stack] s (s.push a) := by
  intro p hp
  cases p <;> first | rfl | simp at hp

theorem State.drawn_changesOnly : ChangesOnly [.rands, .draws] s s.drawn := by
  intro p hp
  cases p <;> first | rfl | simp at hp

end Sys2Proof.Machine
end

