-- ==== Sys2Proof/Laws/Display.lean ====
section
/-! SUPPORT. The laws of the display buffer: pixels after an exclusive or, and what one `DrawByte` does to every pixel
and to its flag (spec/46_display.md R177 to R179). -/

namespace Sys2Proof.Machine

/-- Two buffers with the same pixels are equal. -/
theorem frame_ext {f g : FrameBuffer} (h : ∀ cx cy, cx < 64 → cy < 32 → pixel f cx cy = pixel g cx cy) : f = g := by
  apply Vector.ext
  intro cy hy
  apply BitVec.eq_of_getLsbD_eq
  intro cx hx
  have := h cx cy hx hy
  simpa only [pixel, Nat.mod_eq_of_lt hy, Nat.mod_eq_of_lt hx] using this

/-- Coordinates wrap on both axes (R178). -/
theorem pixel_wrap (f : FrameBuffer) (cx cy : Nat) : pixel f (cx % 64) (cy % 32) = pixel f cx cy := by
  simp only [pixel, Nat.mod_mod]

@[simp] theorem xorPixel_false (f : FrameBuffer) (cx cy : Nat) : xorPixel f cx cy false = f := rfl

/-- The composition law (R177): exactly the addressed pixel is exclusive-ored. -/
theorem pixel_xorPixel (f : FrameBuffer) (cx cy : Nat) (b : Bool) (cx' cy' : Nat) :
    pixel (xorPixel f cx cy b) cx' cy' =
      (pixel f cx' cy' ^^ (b && decide (cx % 64 = cx' % 64) && decide (cy % 32 = cy' % 32))) := by
  cases b with
  | false => simp
  | true =>
    simp only [xorPixel, if_true, pixel, Vector.getElem_set, Bool.true_and]
    by_cases hy : cy % 32 = cy' % 32
    · simp only [hy, if_true, BitVec.getLsbD_xor, BitVec.getLsbD_twoPow, decide_true, Bool.and_true]
      by_cases hx : cx % 64 = cx' % 64
      · simp [hx, Nat.mod_lt]
      · simp [hx]
    · simp [hy]

@[simp] theorem pixel_clearBuffer (cx cy : Nat) : pixel clearBuffer cx cy = false := by
  simp [pixel, clearBuffer]

/-- The pixel index of column `cx` in a sprite row that starts at column `px`: the number of columns to the right,
wrapping (R178, R179). It is below 8 exactly when the row covers the column. -/
def columnIndex (px cx : Nat) : Nat := (cx + 64 - px % 64) % 64

/-- Whether a sprite row has a 1 over the pixel in column `cx` and row `cy`. -/
def rowCovers (byte : Byte) (px py cx cy : Nat) : Bool :=
  decide (py % 32 = cy % 32) && (decide (columnIndex px (cx % 64) < 8) && spriteBit byte (columnIndex px (cx % 64)))

theorem columnIndex_eq_iff (px cx i : Nat) (hi : i < 8) :
    columnIndex px (cx % 64) = i ↔ (px + i) % 64 = cx % 64 := by
  unfold columnIndex
  omega

/-- What a prefix of the loop of `DrawByte` has done to every pixel. -/
theorem foldl_drawPixel_pixel (byte : Byte) (px py : Nat) (is : List Nat) (hnd : is.Nodup) (h8 : ∀ i ∈ is, i < 8)
    (acc : FrameBuffer × Bool) (cx cy : Nat) :
    pixel (is.foldl (drawPixel byte px py) acc).1 cx cy =
      (pixel acc.1 cx cy ^^ (decide (py % 32 = cy % 32) &&
        (decide (columnIndex px (cx % 64) ∈ is) && spriteBit byte (columnIndex px (cx % 64))))) := by
  induction is generalizing acc with
  | nil => simp
  | cons i rest ih =>
    have hi := h8 i (List.mem_cons_self ..)
    obtain ⟨hni, hnd'⟩ := List.nodup_cons.mp hnd
    rw [List.foldl_cons, ih hnd' fun j hj => h8 j (List.mem_cons_of_mem _ hj)]
    simp only [drawPixel, pixel_xorPixel, List.mem_cons]
    by_cases hc : columnIndex px (cx % 64) = i
    · have hm := (columnIndex_eq_iff px cx i hi).mp hc
      simp [hc, hm, hni, Bool.and_comm]
    · have hm : ¬ (px + i) % 64 = cx % 64 := fun e => hc ((columnIndex_eq_iff px cx i hi).mpr e)
      simp [hc, hm]

/-- `DrawByte` exclusive-ors the sprite row into the buffer (R177 to R179). -/
theorem drawByte_pixel (byte : Byte) (px py : Nat) (f : FrameBuffer) (cx cy : Nat) :
    pixel (drawByte byte px py f).1 cx cy = (pixel f cx cy ^^ rowCovers byte px py cx cy) := by
  unfold drawByte rowCovers
  rw [foldl_drawPixel_pixel byte px py _ (by decide) (by decide)]
  congr 2
  congr 1
  simp only [List.mem_cons, List.not_mem_nil, or_false, decide_eq_decide]
  omega

/-- What a prefix of the loop of `DrawByte` has found erased. -/
theorem foldl_drawPixel_flag (byte : Byte) (px py : Nat) (is : List Nat) (hnd : is.Nodup) (h8 : ∀ i ∈ is, i < 8)
    (acc : FrameBuffer × Bool) :
    (is.foldl (drawPixel byte px py) acc).2 =
      (acc.2 || is.any fun i => spriteBit byte i && pixel acc.1 (px + i) py) := by
  induction is generalizing acc with
  | nil => simp
  | cons i rest ih =>
    have hi := h8 i (List.mem_cons_self ..)
    obtain ⟨hni, hnd'⟩ := List.nodup_cons.mp hnd
    have hrest : ∀ j ∈ rest, j < 8 := fun j hj => h8 j (List.mem_cons_of_mem _ hj)
    rw [List.foldl_cons, ih hnd' hrest, List.any_cons, ← Bool.or_assoc]
    simp only [drawPixel]
    congr 1
    rw [Bool.eq_iff_iff, List.any_eq_true, List.any_eq_true]
    have key : ∀ j ∈ rest, pixel (xorPixel acc.1 (px + i) py (spriteBit byte i)) (px + j) py =
        pixel acc.1 (px + j) py := by
      intro j hj
      have hj8 := hrest j hj
      have hij : i ≠ j := fun e => hni (e ▸ hj)
      have : ¬ (px + i) % 64 = (px + j) % 64 := by omega
      simp [pixel_xorPixel, this]
    constructor <;> rintro ⟨j, hj, h⟩ <;> exact ⟨j, hj, by simpa only [key j hj] using h⟩

/-- `DrawByte` reports an erasure exactly when a sprite bit 1 falls on a lit pixel (R177, R179). -/
theorem drawByte_flag (byte : Byte) (px py : Nat) (f : FrameBuffer) :
    (drawByte byte px py f).2 = true ↔ ∃ i < 8, spriteBit byte i = true ∧ pixel f (px + i) py = true := by
  unfold drawByte
  rw [foldl_drawPixel_flag byte px py _ (by decide) (by decide)]
  simp only [Bool.false_or, List.any_eq_true, Bool.and_eq_true]
  constructor
  · rintro ⟨i, hi, h⟩
    refine ⟨i, ?_, h⟩
    simp only [List.mem_cons, List.not_mem_nil, or_false] at hi
    omega
  · rintro ⟨i, hi, h⟩
    refine ⟨i, ?_, h⟩
    simp only [List.mem_cons, List.not_mem_nil, or_false]
    omega

/-- Whether any row of a sprite has a 1 over the pixel, rows being drawn from row `py` down (R180). -/
def spriteCovers (bytes : List Byte) (px py cx cy : Nat) : Bool :=
  match bytes with
  | [] => false
  | b :: bs => rowCovers b px py cx cy ^^ spriteCovers bs px (py + 1) cx cy

/-- Drawing a sprite exclusive-ors it into the buffer, whatever the flag was. -/
theorem drawRows_pixel (bytes : List Byte) (px py : Nat) (f : FrameBuffer) (hit : Bool) (cx cy : Nat) :
    pixel (drawRows bytes px py f hit).1 cx cy = (pixel f cx cy ^^ spriteCovers bytes px py cx cy) := by
  induction bytes generalizing py f hit with
  | nil => simp [drawRows, spriteCovers]
  | cons b bs ih =>
    simp only [drawRows, spriteCovers]
    rw [ih, drawByte_pixel, Bool.xor_assoc]

/-- With at most 32 rows no row is drawn twice, so a sprite covers a pixel exactly when one of its rows does. -/
theorem spriteCovers_iff (bytes : List Byte) (px py cx cy : Nat) (hlen : bytes.length ≤ 32) :
    spriteCovers bytes px py cx cy = true ↔
      ∃ (r : Nat) (h : r < bytes.length), rowCovers bytes[r] px (py + r) cx cy = true := by
  induction bytes generalizing py with
  | nil => simp [spriteCovers]
  | cons b bs ih =>
    simp only [List.length_cons] at hlen
    have htail := ih (py + 1) (by omega)
    have hexcl : rowCovers b px py cx cy = true → spriteCovers bs px (py + 1) cx cy = false := by
      intro hb
      rw [Bool.eq_false_iff, ne_eq, htail]
      rintro ⟨r, hr, hc⟩
      simp only [rowCovers, Bool.and_eq_true, decide_eq_true_eq] at hb hc
      omega
    have hsplit : spriteCovers (b :: bs) px py cx cy = true ↔
        rowCovers b px py cx cy = true ∨ spriteCovers bs px (py + 1) cx cy = true := by
      simp only [spriteCovers]
      cases hb : rowCovers b px py cx cy with
      | false => simp
      | true => simp [hexcl hb]
    rw [hsplit, htail]
    constructor
    · rintro (h | ⟨r, hr, h⟩)
      · exact ⟨0, by simp, h⟩
      · exact ⟨r + 1, by simpa using hr, by simpa [Nat.add_assoc, Nat.add_comm 1 r] using h⟩
    · rintro ⟨r, hr, h⟩
      cases r with
      | zero => exact .inl h
      | succ r =>
        exact .inr ⟨r, by simpa using hr, by simpa [Nat.add_assoc, Nat.add_comm 1 r] using h⟩

/-- A sprite of at most 32 rows reports an erasure exactly when a sprite bit 1 falls on a pixel lit before the draw
(R180): no row reads a pixel an earlier row has drawn. -/
theorem drawRows_flag (bytes : List Byte) (px py : Nat) (f : FrameBuffer) (hit : Bool) (hlen : bytes.length ≤ 32) :
    (drawRows bytes px py f hit).2 = true ↔
      hit = true ∨ ∃ (r : Nat) (h : r < bytes.length), ∃ i < 8,
        spriteBit bytes[r] i = true ∧ pixel f (px + i) (py + r) = true := by
  induction bytes generalizing py f hit with
  | nil => simp [drawRows]
  | cons b bs ih =>
    simp only [List.length_cons] at hlen
    simp only [drawRows]
    rw [ih (py + 1) _ _ (by omega), Bool.or_eq_true, drawByte_flag, or_assoc]
    have hrow : ∀ r, r < bs.length → ∀ i, pixel (drawByte b px py f).1 (px + i) (py + 1 + r) =
        pixel f (px + i) (py + 1 + r) := by
      intro r hr i
      have : ¬ py % 32 = (py + 1 + r) % 32 := by omega
      simp [drawByte_pixel, rowCovers, this]
    refine or_congr_right ?_
    constructor
    · rintro (⟨i, hi, h⟩ | ⟨r, hr, i, hi, h⟩)
      · exact ⟨0, by simp, i, hi, h⟩
      · rw [hrow r hr i] at h
        exact ⟨r + 1, by simpa using hr, i, hi, by simpa [Nat.add_assoc, Nat.add_comm 1 r] using h⟩
    · rintro ⟨r, hr, i, hi, h⟩
      cases r with
      | zero => exact .inl ⟨i, hi, h⟩
      | succ r =>
        have hr' : r < bs.length := by simpa using hr
        refine .inr ⟨r, hr', i, hi, ?_⟩
        rw [hrow r hr' i]
        simpa [Nat.add_assoc, Nat.add_comm 1 r] using h

end Sys2Proof.Machine
end

