-- ==== Sys2Proof/Laws/Memory.lean ====
section
/-! SUPPORT. The laws of memory: read after write, the canonical form kept by every memory operation, the range checks
in closed form (spec/20_memory.md R65), and the block transfers. -/

namespace Sys2Proof.Machine

/-! ### One byte -/

/-- A write leaves every other address alone, canonical or not. -/
theorem Memory.read_write_other (c : Config) (m : Memory) {a a' : Nat} (b : Byte) (h : a' ≠ a) :
    Memory.read c (Memory.write c m a b) a' = Memory.read c m a' := by
  induction m with
  | nil =>
    unfold Memory.write
    split <;> simp [Memory.read, Ne.symm h]
  | cons cell rest ih =>
    obtain ⟨k, b'⟩ := cell
    unfold Memory.write
    split
    · split <;> simp [Memory.read, Ne.symm h]
    · split
      · rename_i hk
        subst hk
        split <;> simp [Memory.read, Ne.symm h]
      · simp only [Memory.read, ih]

/-- An address below every listed one reads as unlisted. -/
theorem Memory.read_below (c : Config) (m : Memory) (a : Nat) (h : ∀ cell ∈ m, a < cell.1) :
    Memory.read c m a = unlisted c a := by
  induction m with
  | nil => rfl
  | cons cell rest ih =>
    have hc : cell.1 ≠ a := fun e => absurd (h cell (List.mem_cons_self ..)) (by omega)
    simp only [Memory.read, if_neg hc]
    exact ih fun x hx => h x (List.mem_cons_of_mem _ hx)

theorem Memory.wf_tail {c : Config} {cell : Host.Cell} {rest : Memory} (h : Memory.wf c (cell :: rest)) :
    Memory.wf c rest := by
  obtain ⟨hp, hu⟩ := h
  rw [List.map_cons, List.pairwise_cons] at hp
  exact ⟨hp.2, fun x hx => hu x (List.mem_cons_of_mem _ hx)⟩

theorem Memory.wf_head_lt {c : Config} {cell : Host.Cell} {rest : Memory} (h : Memory.wf c (cell :: rest)) :
    ∀ x ∈ rest, cell.1 < x.1 := by
  have hp := h.1
  rw [List.map_cons, List.pairwise_cons] at hp
  exact fun x hx => hp.1 x.1 (List.mem_map_of_mem hx)

theorem Memory.wf_cons {c : Config} {cell : Host.Cell} {rest : Memory} (hr : Memory.wf c rest)
    (hlt : ∀ x ∈ rest, cell.1 < x.1) (hu : cell.2 ≠ unlisted c cell.1) : Memory.wf c (cell :: rest) := by
  refine ⟨?_, ?_⟩
  · rw [List.map_cons, List.pairwise_cons]
    refine ⟨?_, hr.1⟩
    intro k hk
    obtain ⟨x, hx, rfl⟩ := List.mem_map.mp hk
    exact hlt x hx
  · intro x hx
    rcases List.mem_cons.mp hx with rfl | hx
    · exact hu
    · exact hr.2 x hx

/-- A read of the address just written gives the byte written. -/
theorem Memory.read_write_same {c : Config} {m : Memory} (a : Nat) (b : Byte) (h : Memory.wf c m) :
    Memory.read c (Memory.write c m a b) a = b := by
  induction m with
  | nil =>
    unfold Memory.write
    split
    · rename_i hb
      simp [Memory.read, hb]
    · simp [Memory.read]
  | cons cell rest ih =>
    obtain ⟨k, b'⟩ := cell
    have hlt := Memory.wf_head_lt h
    unfold Memory.write
    split
    · rename_i hak
      split
      · rename_i hb
        rw [hb]
        exact Memory.read_below c _ a fun x hx => by
          rcases List.mem_cons.mp hx with rfl | hx
          · exact hak
          · exact lt_trans hak (hlt x hx)
      · simp [Memory.read]
    · split
      · rename_i hak
        split
        · rename_i hb
          rw [hb]
          exact Memory.read_below c _ a fun x hx => hak ▸ hlt x hx
        · simp [Memory.read]
      · rename_i hne
        simp only [Memory.read, if_neg (Ne.symm hne)]
        exact ih (Memory.wf_tail h)

/-- Every cell of the memory after a write is an old cell or the cell written. -/
theorem Memory.mem_write {c : Config} {m : Memory} {a : Nat} {b : Byte} {x : Host.Cell}
    (h : x ∈ Memory.write c m a b) : x ∈ m ∨ x = (a, b) := by
  induction m with
  | nil =>
    unfold Memory.write at h
    split at h <;> simp_all
  | cons cell rest ih =>
    obtain ⟨k, b'⟩ := cell
    unfold Memory.write at h
    split at h
    · split at h
      · exact .inl h
      · rcases List.mem_cons.mp h with rfl | h
        · exact .inr rfl
        · exact .inl h
    · split at h
      · split at h
        · exact .inl (List.mem_cons_of_mem _ h)
        · rcases List.mem_cons.mp h with rfl | h
          · exact .inr rfl
          · exact .inl (List.mem_cons_of_mem _ h)
      · rcases List.mem_cons.mp h with rfl | h
        · exact .inl (List.mem_cons_self ..)
        · exact (ih h).imp (List.mem_cons_of_mem _) id

/-- A write keeps the canonical form. -/
theorem Memory.wf_write {c : Config} {m : Memory} (a : Nat) (b : Byte) (h : Memory.wf c m) :
    Memory.wf c (Memory.write c m a b) := by
  induction m with
  | nil =>
    unfold Memory.write
    split
    · exact h
    · rename_i hb
      exact Memory.wf_cons h (by simp) hb
  | cons cell rest ih =>
    obtain ⟨k, b'⟩ := cell
    have hlt := Memory.wf_head_lt h
    have hrest := Memory.wf_tail h
    unfold Memory.write
    split
    · rename_i hak
      split
      · exact h
      · rename_i hb
        refine Memory.wf_cons h ?_ hb
        intro x hx
        rcases List.mem_cons.mp hx with rfl | hx
        · exact hak
        · exact lt_trans hak (hlt x hx)
    · split
      · rename_i hak
        split
        · exact hrest
        · rename_i hb
          exact Memory.wf_cons hrest (fun x hx => hak ▸ hlt x hx) hb
      · refine Memory.wf_cons (ih hrest) ?_ (h.2 _ (List.mem_cons_self ..))
        intro x hx
        rcases Memory.mem_write hx with hx | rfl
        · exact hlt x hx
        · show k < a
          omega

/-- Two canonical memories that read alike everywhere are equal: the canonical form is unique. -/
theorem Memory.eq_of_reads {c : Config} {m m' : Memory} (h : Memory.wf c m) (h' : Memory.wf c m')
    (hr : ∀ a, Memory.read c m a = Memory.read c m' a) : m = m' := by
  induction m generalizing m' with
  | nil =>
    cases m' with
    | nil => rfl
    | cons cell rest =>
      have := hr cell.1
      simp only [Memory.read, if_true] at this
      exact absurd this.symm (h'.2 cell (List.mem_cons_self ..))
  | cons cell rest ih =>
    have hc := h.2 cell (List.mem_cons_self ..)
    have hlt := Memory.wf_head_lt h
    cases m' with
    | nil =>
      have := hr cell.1
      simp only [Memory.read, if_true] at this
      exact absurd this hc
    | cons cell' rest' =>
      have hc' := h'.2 cell' (List.mem_cons_self ..)
      have hlt' := Memory.wf_head_lt h'
      have hk : cell.1 = cell'.1 := by
        rcases Nat.lt_trichotomy cell.1 cell'.1 with hl | he | hg
        · have hb := Memory.read_below c (cell' :: rest') cell.1 fun x hx => by
            rcases List.mem_cons.mp hx with rfl | hx
            · exact hl
            · exact lt_trans hl (hlt' x hx)
          rw [← hr cell.1] at hb
          simp only [Memory.read, if_true] at hb
          exact absurd hb hc
        · exact he
        · have hb := Memory.read_below c (cell :: rest) cell'.1 fun x hx => by
            rcases List.mem_cons.mp hx with rfl | hx
            · exact hg
            · exact lt_trans hg (hlt x hx)
          rw [hr cell'.1] at hb
          simp only [Memory.read, if_true] at hb
          exact absurd hb hc'
      have hv : cell.2 = cell'.2 := by
        have := hr cell.1
        simpa only [Memory.read, if_true, if_pos hk.symm] using this
      have hcell : cell = cell' := Prod.ext hk hv
      subst hcell
      congr 1
      refine ih (Memory.wf_tail h) (Memory.wf_tail h') fun a => ?_
      by_cases ha : cell.1 = a
      · subst ha
        rw [Memory.read_below c rest _ hlt, Memory.read_below c rest' _ hlt']
      · have := hr a
        simpa only [Memory.read, if_neg ha] using this

/-! ### The same through the state -/

theorem State.writeByte_readByte_other (s : State) {a a' : Nat} (b : Byte) (h : a' ≠ a) :
    (s.writeByte a b).readByte a' = s.readByte a' := Memory.read_write_other s.cfg s.mem b h

theorem State.writeByte_readByte_same {s : State} (a : Nat) (b : Byte) (h : Memory.wf s.cfg s.mem) :
    (s.writeByte a b).readByte a = b := Memory.read_write_same a b h

/-! ### Block stores -/

section
variable (bytes : List Byte) (a : Nat) (s : State)

/-- All a block store can do: it writes memory and nothing else. -/
theorem writeBytes_eq : writeBytes bytes a s = { s with mem := (writeBytes bytes a s).mem } := by
  induction bytes generalizing a s with
  | nil => rfl
  | cons b bs ih =>
    simp only [writeBytes]
    rw [ih (a + 1) (s.writeByte a b)]
    rfl

@[simp] theorem writeBytes_v : (writeBytes bytes a s).v = s.v := by rw [writeBytes_eq]
@[simp] theorem writeBytes_i : (writeBytes bytes a s).i = s.i := by rw [writeBytes_eq]
@[simp] theorem writeBytes_pc : (writeBytes bytes a s).pc = s.pc := by rw [writeBytes_eq]
@[simp] theorem writeBytes_stack : (writeBytes bytes a s).stack = s.stack := by rw [writeBytes_eq]
@[simp] theorem writeBytes_fb : (writeBytes bytes a s).fb = s.fb := by rw [writeBytes_eq]
@[simp] theorem writeBytes_key : (writeBytes bytes a s).key = s.key := by rw [writeBytes_eq]
@[simp] theorem writeBytes_dt : (writeBytes bytes a s).dt = s.dt := by rw [writeBytes_eq]
@[simp] theorem writeBytes_run : (writeBytes bytes a s).run = s.run := by rw [writeBytes_eq]
@[simp] theorem writeBytes_cfg : (writeBytes bytes a s).cfg = s.cfg := by rw [writeBytes_eq]
@[simp] theorem writeBytes_events : (writeBytes bytes a s).events = s.events := by rw [writeBytes_eq]
@[simp] theorem writeBytes_rands : (writeBytes bytes a s).rands = s.rands := by rw [writeBytes_eq]
@[simp] theorem writeBytes_draws : (writeBytes bytes a s).draws = s.draws := by rw [writeBytes_eq]
@[simp] theorem writeBytes_reg (r : Nibble) : (writeBytes bytes a s).reg r = s.reg r := by
  simp only [State.reg, writeBytes_v]

theorem writeBytes_readByte_outside {a' : Nat} (h : a' < a ∨ a + bytes.length ≤ a') :
    (writeBytes bytes a s).readByte a' = s.readByte a' := by
  induction bytes generalizing a s with
  | nil => rfl
  | cons b bs ih =>
    simp only [List.length_cons] at h
    simp only [writeBytes]
    rw [ih (a + 1) (s.writeByte a b) (by omega), s.writeByte_readByte_other b (by omega)]

theorem writeBytes_wf (h : Memory.wf s.cfg s.mem) :
    Memory.wf s.cfg (writeBytes bytes a s).mem := by
  induction bytes generalizing a s with
  | nil => exact h
  | cons b bs ih => exact ih (a + 1) (s.writeByte a b) (Memory.wf_write a b h)

theorem writeBytes_readByte_inside (h : Memory.wf s.cfg s.mem) {k : Nat} (hk : k < bytes.length) :
    (writeBytes bytes a s).readByte (a + k) = bytes[k] := by
  induction bytes generalizing a s k with
  | nil => simp at hk
  | cons b bs ih =>
    simp only [writeBytes]
    cases k with
    | zero =>
      rw [writeBytes_readByte_outside bs (a + 1) _ (by omega)]
      simpa using s.writeByte_readByte_same a b h
    | succ k =>
      have hk' : k < bs.length := by simpa using hk
      have := ih (a + 1) (s.writeByte a b) (Memory.wf_write a b h) hk'
      simpa [Nat.add_assoc, Nat.add_comm 1 k] using this

/-- Every cell after a block store is an old cell or lies in the stored range. -/
theorem writeBytes_mem {x : Host.Cell} (h : x ∈ (writeBytes bytes a s).mem) :
    x ∈ s.mem ∨ (a ≤ x.1 ∧ x.1 < a + bytes.length) := by
  induction bytes generalizing a s with
  | nil => exact .inl h
  | cons b bs ih =>
    rcases ih (a + 1) (s.writeByte a b) h with h | h
    · rcases Memory.mem_write h with h | rfl
      · exact .inl h
      · exact .inr ⟨le_refl _, by simp⟩
    · exact .inr ⟨by omega, by simp only [List.length_cons]; omega⟩

theorem writeBytes_changesOnly : ChangesOnly (bytesFrom a bytes.length) s (writeBytes bytes a s) := by
  intro p hp
  cases p with
  | byte c =>
    refine writeBytes_readByte_outside bytes a s ?_
    by_contra hc
    refine hp (List.mem_map.mpr ⟨c - a, List.mem_range.mpr (by omega), ?_⟩)
    congr 1
    omega
  | _ => simp [Unchanged]

end

/-! ### Block reads and the register block -/

@[simp] theorem readBytes_length (s : State) (a n : Nat) : (readBytes s a n).length = n := by
  induction n generalizing a with
  | zero => rfl
  | succ n ih => simp [readBytes, ih]

theorem readBytes_getElem (s : State) (a n : Nat) {k : Nat} (hk : k < n) :
    (readBytes s a n)[k]'(by simpa using hk) = s.readByte (a + k) := by
  induction n generalizing a k with
  | zero => omega
  | succ n ih =>
    cases k with
    | zero => rfl
    | succ k =>
      have := ih (a + 1) (k := k) (by omega)
      simpa [readBytes, Nat.add_assoc, Nat.add_comm 1 k] using this

@[simp] theorem readRegisters_length (s : State) (k n : Nat) : (readRegisters s k n).length = n := by
  induction n generalizing k with
  | zero => rfl
  | succ n ih => simp [readRegisters, ih]

theorem readRegisters_getElem (s : State) (k n : Nat) {j : Nat} (hj : j < n) :
    (readRegisters s k n)[j]'(by simpa using hj) = s.reg (BitVec.ofNat 4 (k + j)) := by
  induction n generalizing k j with
  | zero => omega
  | succ n ih =>
    cases j with
    | zero => rfl
    | succ j =>
      have := ih (k + 1) (j := j) (by omega)
      simpa [readRegisters, Nat.add_assoc, Nat.add_comm 1 j] using this

/-- All a block load can do: it writes registers and nothing else. -/
theorem loadRegisters_eq (bytes : List Byte) (k : Nat) (s : State) :
    loadRegisters bytes k s = { s with v := (loadRegisters bytes k s).v } := by
  induction bytes generalizing k s with
  | nil => rfl
  | cons b bs ih =>
    simp only [loadRegisters]
    rw [ih (k + 1) (s.setReg (BitVec.ofNat 4 k) b)]
    rfl

section
variable (bytes : List Byte) (k : Nat) (s : State)
@[simp] theorem loadRegisters_i : (loadRegisters bytes k s).i = s.i := by rw [loadRegisters_eq]
@[simp] theorem loadRegisters_pc : (loadRegisters bytes k s).pc = s.pc := by rw [loadRegisters_eq]
@[simp] theorem loadRegisters_stack : (loadRegisters bytes k s).stack = s.stack := by rw [loadRegisters_eq]
@[simp] theorem loadRegisters_mem : (loadRegisters bytes k s).mem = s.mem := by rw [loadRegisters_eq]
@[simp] theorem loadRegisters_fb : (loadRegisters bytes k s).fb = s.fb := by rw [loadRegisters_eq]
@[simp] theorem loadRegisters_key : (loadRegisters bytes k s).key = s.key := by rw [loadRegisters_eq]
@[simp] theorem loadRegisters_dt : (loadRegisters bytes k s).dt = s.dt := by rw [loadRegisters_eq]
@[simp] theorem loadRegisters_run : (loadRegisters bytes k s).run = s.run := by rw [loadRegisters_eq]
@[simp] theorem loadRegisters_cfg : (loadRegisters bytes k s).cfg = s.cfg := by rw [loadRegisters_eq]
@[simp] theorem loadRegisters_events : (loadRegisters bytes k s).events = s.events := by rw [loadRegisters_eq]
@[simp] theorem loadRegisters_rands : (loadRegisters bytes k s).rands = s.rands := by rw [loadRegisters_eq]
@[simp] theorem loadRegisters_draws : (loadRegisters bytes k s).draws = s.draws := by rw [loadRegisters_eq]
@[simp] theorem loadRegisters_readByte (a : Nat) : (loadRegisters bytes k s).readByte a = s.readByte a := by
  simp only [State.readByte, loadRegisters_mem, loadRegisters_cfg]
end

theorem loadRegisters_reg_outside (bytes : List Byte) (k : Nat) (s : State) (hb : k + bytes.length ≤ 16)
    {r : Nibble} (hr : r.toNat < k ∨ k + bytes.length ≤ r.toNat) :
    (loadRegisters bytes k s).reg r = s.reg r := by
  induction bytes generalizing k s with
  | nil => rfl
  | cons b bs ih =>
    simp only [List.length_cons] at hb hr
    simp only [loadRegisters]
    rw [ih (k + 1) _ (by omega) (by omega), State.setReg_reg_other]
    intro e
    have := congrArg BitVec.toNat e
    rw [BitVec.toNat_ofNat, Nat.mod_eq_of_lt (by omega)] at this
    omega

theorem loadRegisters_reg_inside (bytes : List Byte) (k : Nat) (s : State) (hb : k + bytes.length ≤ 16)
    {j : Nat} (hj : j < bytes.length) :
    (loadRegisters bytes k s).reg (BitVec.ofNat 4 (k + j)) = bytes[j] := by
  induction bytes generalizing k s j with
  | nil => simp at hj
  | cons b bs ih =>
    simp only [List.length_cons] at hb hj
    simp only [loadRegisters]
    cases j with
    | zero =>
      rw [loadRegisters_reg_outside bs (k + 1) _ (by omega)]
      · simp
      · left
        rw [BitVec.toNat_ofNat, Nat.mod_eq_of_lt (by omega)]
        omega
    | succ j =>
      have := ih (k + 1) (s.setReg (BitVec.ofNat 4 k) b) (by omega) (j := j) (by omega)
      simpa [Nat.add_assoc, Nat.add_comm 1 j] using this

theorem loadRegisters_changesOnly (x : Nibble) (bytes : List Byte) (s : State)
    (hb : bytes.length = x.toNat + 1) : ChangesOnly (regsUpTo x) s (loadRegisters bytes 0 s) := by
  intro p hp
  cases p with
  | reg r =>
    have hx := x.isLt
    refine loadRegisters_reg_outside bytes 0 s (by omega) ?_
    by_contra hc
    exact hp (List.mem_map.mpr ⟨r.toNat, List.mem_range.mpr (by omega), by simp⟩)
  | _ => simp [Unchanged]

/-! ### Range checks in closed form (R65) -/

theorem checkRange_read_eq (a n : Nat) :
    checkRange checkRead a n =
      if n = 0 ∨ a + n ≤ 4096 then .ok () else .error (.dataRange (BitVec.ofNat 16 (max a 4096))) := by
  induction n generalizing a with
  | zero => rfl
  | succ n ih =>
    simp only [checkRange, checkRead]
    by_cases ha : 4095 < a
    · rw [if_pos ha, if_neg (by omega), Nat.max_eq_left (by omega)]
    · rw [if_neg ha]
      show checkRange checkRead (a + 1) n = _
      rw [ih]
      by_cases hn : n = 0 ∨ a + 1 + n ≤ 4096
      · rw [if_pos hn, if_pos (by omega)]
      · rw [if_neg hn, if_neg (by omega)]
        congr 3
        omega

theorem checkRange_write_eq (a n : Nat) :
    checkRange checkWrite a n =
      if n = 0 then .ok ()
      else if a < 80 then .error (.fontWrite (BitVec.ofNat 16 a))
      else if a + n ≤ 4096 then .ok ()
      else .error (.dataRange (BitVec.ofNat 16 (max a 4096))) := by
  induction n generalizing a with
  | zero => rfl
  | succ n ih =>
    simp only [checkRange, checkWrite]
    by_cases ha : 4095 < a
    · rw [if_pos ha, if_neg (by omega), if_neg (by omega), if_neg (by omega), Nat.max_eq_left (by omega)]
    · rw [if_neg ha]
      by_cases hf : a < 80
      · rw [if_pos hf, if_neg (by omega), if_pos hf]
      · rw [if_neg hf]
        show checkRange checkWrite (a + 1) n = _
        rw [ih, if_neg (show ¬ n + 1 = 0 by omega), if_neg hf]
        by_cases hn : n = 0
        · rw [if_pos hn, if_pos (by omega)]
        · rw [if_neg hn, if_neg (by omega)]
          by_cases hl : a + 1 + n ≤ 4096
          · rw [if_pos hl, if_pos (by omega)]
          · rw [if_neg hl, if_neg (by omega)]
            congr 3
            omega

/-! ### The memory after Reset -/

theorem unlisted_above (c : Config) {a : Nat} (h : 80 ≤ a) : unlisted c a = 0#8 := by
  simp [unlisted, Nat.not_lt.mpr h]

theorem placeBytes_range (c : Config) (bytes : List Byte) (a : Nat) {x : Host.Cell} (h : x ∈ placeBytes c bytes a) :
    a ≤ x.1 ∧ x.1 < a + bytes.length := by
  induction bytes generalizing a with
  | nil => simp [placeBytes] at h
  | cons b bs ih =>
    simp only [placeBytes] at h
    simp only [List.length_cons]
    split at h
    · have := ih (a + 1) h
      omega
    · rcases List.mem_cons.mp h with rfl | h
      · exact ⟨le_refl _, by simp⟩
      · have := ih (a + 1) h
        omega

theorem placeBytes_wf (c : Config) (bytes : List Byte) (a : Nat) : Memory.wf c (placeBytes c bytes a) := by
  induction bytes generalizing a with
  | nil => exact ⟨List.Pairwise.nil, by simp [placeBytes]⟩
  | cons b bs ih =>
    simp only [placeBytes]
    split
    · exact ih (a + 1)
    · rename_i hb
      refine Memory.wf_cons (ih (a + 1)) (fun x hx => ?_) hb
      have := placeBytes_range c bs (a + 1) hx
      show a < x.1
      omega

theorem placeBytes_read (c : Config) (bytes : List Byte) (a : Nat) (j : Nat) :
    Memory.read c (placeBytes c bytes a) j =
      if h : a ≤ j ∧ j < a + bytes.length then bytes[j - a]'(by omega) else unlisted c j := by
  induction bytes generalizing a with
  | nil =>
    rw [dif_neg (by simp only [List.length_nil]; omega)]
    rfl
  | cons b bs ih =>
    have hbelow : Memory.read c (placeBytes c bs (a + 1)) a = unlisted c a :=
      Memory.read_below c _ a fun x hx => by
        have := placeBytes_range c bs (a + 1) hx
        omega
    rcases Nat.lt_trichotomy a j with hlt | rfl | hgt
    · have hstep : Memory.read c (placeBytes c (b :: bs) a) j = Memory.read c (placeBytes c bs (a + 1)) j := by
        simp only [placeBytes]
        split
        · rfl
        · simp only [Memory.read, if_neg (show ¬ a = j by omega)]
      rw [hstep, ih]
      by_cases h : j < a + 1 + bs.length
      · rw [dif_pos ⟨hlt, h⟩, dif_pos ⟨by omega, by simp only [List.length_cons]; omega⟩]
        obtain ⟨d, hd⟩ : ∃ d, j - a = d + 1 := ⟨j - a - 1, by omega⟩
        have hd' : j - (a + 1) = d := by omega
        simp only [hd, hd', List.getElem_cons_succ]
      · rw [dif_neg (by omega), dif_neg (by simp only [List.length_cons]; omega)]
    · rw [dif_pos ⟨le_refl _, by simp⟩]
      simp only [placeBytes, Nat.sub_self, List.getElem_cons_zero]
      split
      · rename_i hb
        rw [hbelow, hb]
      · simp [Memory.read]
    · rw [dif_neg (by omega)]
      refine Memory.read_below c _ j fun x hx => ?_
      have := placeBytes_range c (b :: bs) a hx
      omega

theorem romMemory_wf (c : Config) (rom : List Byte) : Memory.wf c (romMemory c rom) := by
  unfold romMemory
  split
  · exact ⟨List.Pairwise.nil, by simp⟩
  · exact placeBytes_wf c rom _

theorem romMemory_range (c : Config) (rom : List Byte) {x : Host.Cell} (h : x ∈ romMemory c rom) :
    0x200 ≤ x.1 ∧ x.1 ≤ 4095 := by
  unfold romMemory at h
  split at h
  · simp at h
  · rename_i hl
    have := placeBytes_range c rom _ h
    simp only [maxRomSize, memSize, loadAddress] at hl this
    omega

/-- What memory reads as after `Reset(rom)`: the image from 0x200 when it fits, and the unlisted value elsewhere
(R240 to R242). -/
theorem romMemory_read (c : Config) (rom : List Byte) (a : Nat) :
    Memory.read c (romMemory c rom) a =
      if h : rom.length ≤ 3584 ∧ 512 ≤ a ∧ a < 512 + rom.length then rom[a - 512]'(by omega) else unlisted c a := by
  unfold romMemory
  split
  · rename_i hl
    simp only [maxRomSize, memSize, loadAddress] at hl
    rw [dif_neg (by omega)]
    rfl
  · rename_i hl
    simp only [maxRomSize, memSize, loadAddress] at hl
    rw [placeBytes_read]
    by_cases h : 512 ≤ a ∧ a < 512 + rom.length
    · rw [dif_pos (by simpa only [loadAddress] using h), dif_pos ⟨by omega, h⟩]
      rfl
    · rw [dif_neg (by simpa only [loadAddress] using h), dif_neg (by omega)]

end Sys2Proof.Machine
end

