-- ==== Sys2Proof/Laws/Ops.lean ====
section
/-! SUPPORT. One lemma for each shared operation that says all it can do, and the frames of the composed updates; the
later proofs cite these instead of unfolding. -/

namespace Sys2Proof.Machine

/-! ### Fatal errors -/

/-- Raising answers a next state that differs in `RUN` only (R206, R207). -/
theorem raiseFatal_eq_next (f : Fault) (s t : State) : raiseFatal f s = .next t ↔ t = s.setRun (.halted f) := by
  unfold raiseFatal
  constructor
  · intro h
    cases h
    rfl
  · rintro rfl
    rfl

/-- A guarded instruction answers its result when the check passes, and raises the check's error when it does not. -/
theorem guarded_eq_next {check : Except Fault Unit} {s t u : State} (h : guarded check s t = .next u) :
    (check = .ok () ∧ u = t) ∨ ∃ f, check = .error f ∧ u = s.setRun (.halted f) := by
  cases check with
  | error f => exact .inr ⟨f, rfl, (raiseFatal_eq_next f s u).mp h⟩
  | ok x => cases h; exact .inl ⟨rfl, rfl⟩

@[simp] theorem guarded_ok (s t : State) : guarded (.ok ()) s t = .next t := rfl
@[simp] theorem guarded_error (f : Fault) (s t : State) : guarded (.error f) s t = .next (s.setRun (.halted f)) := rfl

/-! ### Fetching (R61, R63) -/

theorem fetchWord_ok {s : State} {w : Word} (h : fetchWord s = .ok w) :
    s.pc.toNat ≤ 4094 ∧ w = wordOfBytes (s.readByte s.pc.toNat) (s.readByte (s.pc.toNat + 1)) := by
  unfold fetchWord at h
  split at h
  · cases h
  · cases h
    exact ⟨by omega, rfl⟩

theorem fetchWord_error {s : State} {f : Fault} (h : fetchWord s = .error f) :
    4094 < s.pc.toNat ∧ f = .fetchRange s.pc := by
  unfold fetchWord at h
  split at h
  · cases h
    exact ⟨by omega, rfl⟩
  · cases h

theorem fetchWord_of_range {s : State} (h : s.pc.toNat ≤ 4094) :
    fetchWord s = .ok (wordOfBytes (s.readByte s.pc.toNat) (s.readByte (s.pc.toNat + 1))) := by
  unfold fetchWord
  rw [if_neg (by omega)]

theorem fetchWord_of_above {s : State} (h : 4094 < s.pc.toNat) : fetchWord s = .error (.fetchRange s.pc) := by
  unfold fetchWord
  rw [if_pos (by omega)]

/-- The word of two bytes as a number, big-endian (R61, R63). -/
theorem wordOfBytes_toNat (hi lo : Byte) : (wordOfBytes hi lo).toNat = 256 * hi.toNat + lo.toNat := by
  unfold wordOfBytes
  rw [BitVec.toNat_append, Nat.shiftLeft_eq, Nat.mul_comm, ← Nat.two_pow_add_eq_or_of_lt lo.isLt]

/-! ### The call stack -/

theorem State.stackFull_iff (s : State) : s.stackFull = true ↔ s.cfg.stackDepth = some s.sp := by
  unfold State.stackFull
  cases s.cfg.stackDepth with
  | none => simp
  | some d =>
    simp only [beq_iff_eq, Option.some.injEq]
    exact eq_comm

@[simp] theorem State.push_sp (s : State) (a : Word) : (s.push a).sp = s.sp + 1 := rfl

/-- The entry pushed is the newest (R29). -/
theorem State.push_stackEntry_new (s : State) (a : Word) : (s.push a).stackEntry s.sp = some a := by
  simp [State.stackEntry, State.push, State.sp]

/-- A push leaves the entries below alone. -/
theorem State.push_stackEntry_old (s : State) (a : Word) {k : Nat} (h : k < s.sp) :
    (s.push a).stackEntry k = s.stackEntry k := by
  have hk : k < s.stack.reverse.length := by simpa [State.sp] using h
  simp [State.stackEntry, State.push, List.getElem?_append_left hk]

/-! ### Frames of the composed updates -/

section
variable (s : State)

theorem State.advance_changesOnly : ChangesOnly [.pc] s s.advance := s.setPc_changesOnly _

theorem State.skipIf_changesOnly (c : Bool) : ChangesOnly [.pc] s (s.skipIf c) := by
  rw [State.skipIf_eq]
  exact s.setPc_changesOnly _

theorem State.bumpI_changesOnly (k : Nat) : ChangesOnly [.index] s (s.bumpI k) := s.setI_changesOnly _

theorem State.setFlag_changesOnly (c : Bool) : ChangesOnly [.reg vf] s (s.setFlag c) := s.setReg_changesOnly _ _

end

/-- A further update adds its parts to a frame. -/
theorem ChangesOnly.andThen {ps qs : List Part} {s t u : State} (h : ChangesOnly ps s t) (h' : ChangesOnly qs t u) :
    ChangesOnly (ps ++ qs) s u :=
  ChangesOnly.trans (h.mono fun _ hp => List.mem_append_left _ hp) (h'.mono fun _ hp => List.mem_append_right _ hp)

/-- The register reads after a flag write: register 15 holds the flag. -/
theorem State.setFlag_reg (s : State) (c : Bool) (r : Nibble) :
    (s.setFlag c).reg r = if r = vf then flagByte c else s.reg r := by
  simp only [State.setFlag, State.setReg_reg, eq_comm]

@[simp] theorem State.setFlag_pc (s : State) (c : Bool) : (s.setFlag c).pc = s.pc := rfl
@[simp] theorem State.setFlag_fb (s : State) (c : Bool) : (s.setFlag c).fb = s.fb := rfl
@[simp] theorem State.setFlag_i (s : State) (c : Bool) : (s.setFlag c).i = s.i := rfl
@[simp] theorem State.setFlag_run (s : State) (c : Bool) : (s.setFlag c).run = s.run := rfl
@[simp] theorem State.setFlag_readByte (s : State) (c : Bool) (a : Nat) : (s.setFlag c).readByte a = s.readByte a := rfl

/-! ### The step cycle -/

/-- Handling no listed event is handling `Step` on the state as it is. -/
theorem cycle_nil {s : State} (h : s.events = []) : cycle s = stepEvent s := by
  have hs : s.setEvents s.events.tail = s := by
    cases s
    simp only at h
    subst h
    rfl
  unfold cycle
  rw [hs]
  simp [nextEvent, h, handleEvent]

theorem cycle_cons {s : State} {e : HostEvent} {rest : List HostEvent} (h : s.events = e :: rest) :
    cycle s = handleEvent e (s.setEvents rest) := by
  simp [cycle, nextEvent, h]

/-- All that one step can be: `Step` or one of the other events, on the state with that event taken off. -/
theorem step_cases {s t : State} (h : step s = .next t) :
    (∃ rest, (s.events = [] ∧ rest = [] ∨ s.events = .step :: rest) ∧ stepEvent (s.setEvents rest) = .next t) ∨
    (∃ k rest, s.events = .keyEvent k :: rest ∧ t = keyEvent k (s.setEvents rest)) ∨
    (∃ rest, s.events = .timerTick :: rest ∧ t = timerTick (s.setEvents rest)) ∨
    (∃ rom rest, s.events = .reset rom :: rest ∧ t = resetWith rom (s.setEvents rest)) := by
  unfold step at h
  cases he : s.events with
  | nil =>
    rw [cycle, nextEvent, he] at h
    exact .inl ⟨[], .inl ⟨rfl, rfl⟩, h⟩
  | cons e rest =>
    rw [cycle_cons he] at h
    cases e with
    | step => exact .inl ⟨rest, .inr rfl, h⟩
    | keyEvent k => cases h; exact .inr (.inl ⟨k, rest, rfl, rfl⟩)
    | timerTick => cases h; exact .inr (.inr (.inl ⟨rest, rfl, rfl⟩))
    | reset rom => cases h; exact .inr (.inr (.inr ⟨rom, rest, rfl, rfl⟩))

/-- All that the event `Step` can be: nothing while the machine waits or is halted; else a fetch fault, an illegal
word, or the instruction (R93, R208). -/
theorem stepEvent_cases {s t : State} (h : stepEvent s = .next t) :
    (s.run ≠ .running ∧ t = s) ∨
    (s.run = .running ∧ 4094 < s.pc.toNat ∧ t = s.setRun (.halted (.fetchRange s.pc))) ∨
    (s.run = .running ∧ ∃ w, fetchWord s = .ok w ∧ (∀ i, decodeWord w ≠ .ok i) ∧
      t = s.setRun (.halted (.illegalOpcode w))) ∨
    (s.run = .running ∧ ∃ w i, fetchWord s = .ok w ∧ decodeWord w = .ok i ∧ exec i s = .next t) := by
  unfold stepEvent at h
  cases hr : s.run with
  | waitingForKey x =>
    rw [hr] at h
    cases h
    exact .inl ⟨by simp, rfl⟩
  | halted f =>
    rw [hr] at h
    cases h
    exact .inl ⟨by simp, rfl⟩
  | running =>
    rw [hr] at h
    simp only [runInstruction] at h
    cases hf : fetchWord s with
    | error f =>
      obtain ⟨hp, rfl⟩ := fetchWord_error hf
      rw [hf] at h
      exact .inr (.inl ⟨rfl, hp, (raiseFatal_eq_next _ s t).mp h⟩)
    | ok w =>
      rw [hf] at h
      simp only at h
      cases hd : decodeWord w with
      | error e =>
        rw [hd] at h
        exact .inr (.inr (.inl ⟨rfl, w, rfl, fun i hi => by simp [hd] at hi, (raiseFatal_eq_next _ s t).mp h⟩))
      | ok i =>
        rw [hd] at h
        exact .inr (.inr (.inr ⟨rfl, w, i, rfl, hd, h⟩))

/-! ### Runs of several steps -/

theorem run_succ (m : Host.Core) {s t : m.State} (k : Nat) (h : m.step s = .next t) : m.run (k + 1) s = m.run k t := by
  rw [Host.Core.run, h]

/-- A run of `k + 1` steps is one step and a run of `k`. -/
theorem core_run_succ {s t : State} (k : Nat) (h : step s = .next t) :
    Sys2Proof.core.run (k + 1) s = Sys2Proof.core.run k t := run_succ Sys2Proof.core k h

/-! ### Fatal errors -/

/-- `FaultReport` and `StepFault` read only `PC`, `I`, the stack, the parameters and memory, so that they hold on after
anything that keeps those. -/
theorem stepFault_congr {f : Fault} {s t : State} (hp : t.pc = s.pc) (hi : t.i = s.i) (hs : t.stack = s.stack)
    (hc : t.cfg = s.cfg) (hm : ∀ a, t.readByte a = s.readByte a) (h : StepFault f s) : StepFault f t := by
  have hf := fetchWord_congr hp hm
  cases f <;> simp only [StepFault, OwnFault, hf, hp, hi, hc, State.sp, hs] at * <;> exact h

theorem faultReport_congr {f : Fault} {s t : State} (hp : t.pc = s.pc) (hi : t.i = s.i) (hs : t.stack = s.stack)
    (hc : t.cfg = s.cfg) (hm : ∀ a, t.readByte a = s.readByte a) (h : FaultReport f s) : FaultReport f t := by
  cases f <;> simp only [FaultReport] at h ⊢ <;> first | exact h | exact stepFault_congr hp hi hs hc hm h

/-- An instruction's own fatal error is one a `Step` raises wherever its word lies at `PC`. -/
theorem OwnFault.stepFault {i : Instr} {s : State} {f : Fault} (hw : fetchWord s = .ok (encode i))
    (h : OwnFault i s f) : StepFault f s := by
  cases f <;> first | exact ⟨i, hw, h⟩ | exact h.elim

/-- What a `Step` raises, it may record. -/
theorem StepFault.faultReport {f : Fault} {s : State} (h : StepFault f s) : FaultReport f s := by
  cases f <;> first | exact h | (obtain ⟨_, _, h⟩ := h; exact h.elim)

/-! ### The tick and the key event -/

/-- All a tick can do: `DT` counts down to zero (R198). -/
theorem timerTick_dt (s : State) : (timerTick s).dt.toNat = s.dt.toNat - 1 := by
  unfold timerTick
  split
  · rename_i h
    rw [h]
    rfl
  · rename_i h
    have hne : s.dt.toNat ≠ 0 := fun e => h (BitVec.eq_of_toNat_eq e)
    show (s.dt - 1#8).toNat = _
    have hlt := s.dt.isLt
    rw [BitVec.toNat_sub, show (1#8).toNat = 1 from rfl]
    omega

theorem timerTick_frame (s : State) : ChangesOnly [.dt] s (timerTick s) := by
  unfold timerTick
  split
  · exact ChangesOnly.refl s _
  · exact s.setDt_changesOnly _

/-- A key event that ends no wait sets the latch and nothing else (R189). -/
theorem keyEvent_latch {s : State} {k : Option Nibble} (h : (∀ x, s.run ≠ .waitingForKey x) ∨ k = none) :
    keyEvent k s = s.setKey k := by
  unfold keyEvent
  split
  · rename_i x c hr
    rcases h with h | h
    · exact absurd hr (h x)
    · cases h
  · rfl

/-- A key ends a wait (R189). -/
theorem keyEvent_resume {s : State} {x : Nibble} (c : Nibble) (h : s.run = .waitingForKey x) :
    keyEvent (some c) s = (s.setKey (some c)).resume x c := by
  unfold keyEvent
  rw [h]

end Sys2Proof.Machine
end

