-- ==== Sys2Proof/Laws/PerInstr.lean ====
section
/-! SUPPORT. A fact about every instruction as syntax, one lemma per constructor: the word of an instruction fits the
mask and match of its own row of the opcode table (spec/30_encoding.md R97). -/

namespace Sys2Proof.Laws.TableMask

/-- Every row of the opcode table with the instruction's pattern matches the instruction's word. -/
def Statement (i : Instr) : Prop := ∀ r ∈ opcodeTable, r.pattern = i.pattern → r.matchesWord (encode i) = true

/-- The rows of the opcode table under one pattern. -/
theorem of_row {i : Instr} (row : TableRow) (hp : i.pattern = row.pattern)
    (hrow : ∀ r ∈ opcodeTable, r.pattern = row.pattern → r = row) (h : row.matchesWord (encode i) = true) :
    Statement i :=
  fun r hr hi => hrow r hr (hi.trans hp) ▸ h

section
variable (op a b c x : Nibble) (nn : Byte) (nnn : Imm12)

theorem xnn_eq : wordOfXnn op x nn = wordOfNibbles op x (yField (wordOfXnn op x nn)) (nField (wordOfXnn op x nn)) := by
  conv_lhs => rw [← wordOfNibbles_fields (wordOfXnn op x nn)]
  simp

theorem nnn_eq : wordOfNnn op nnn = wordOfNibbles op (xField (wordOfNnn op nnn)) (yField (wordOfNnn op nnn))
    (nField (wordOfNnn op nnn)) := by
  conv_lhs => rw [← wordOfNibbles_fields (wordOfNnn op nnn)]
  simp

theorem xnn_and_F000 : wordOfXnn op x nn &&& 0xF000#16 = wordOfNibbles op 0#4 0#4 0#4 := by
  rw [xnn_eq, wordOfNibbles_and_F000]

theorem nnn_and_F000 : wordOfNnn op nnn &&& 0xF000#16 = wordOfNibbles op 0#4 0#4 0#4 := by
  rw [nnn_eq, wordOfNibbles_and_F000]

theorem xnn_and_F0FF : wordOfXnn op x nn &&& 0xF0FF#16 = wordOfXnn op 0#4 nn := by
  apply BitVec.eq_of_getLsbD_eq
  intro i hi
  unfold wordOfXnn
  interval_cases i <;> (simp only [BitVec.getLsbD_and, BitVec.getLsbD_append]; simp)

end

theorem cls : Statement .cls :=
  of_row ⟨"00E0", 0xFFFF, 0x00E0⟩ rfl (by decide) rfl

theorem ret : Statement .ret :=
  of_row ⟨"00EE", 0xFFFF, 0x00EE⟩ rfl (by decide) rfl

theorem sys (nnn : Imm12) : Statement (.sys nnn) :=
  of_row ⟨"0nnn", 0xF000, 0x0000⟩ rfl (by decide) (beq_iff_eq.mpr (nnn_and_F000 ..))

theorem jp (nnn : Imm12) : Statement (.jp nnn) :=
  of_row ⟨"1nnn", 0xF000, 0x1000⟩ rfl (by decide) (beq_iff_eq.mpr (nnn_and_F000 ..))

theorem call (nnn : Imm12) : Statement (.call nnn) :=
  of_row ⟨"2nnn", 0xF000, 0x2000⟩ rfl (by decide) (beq_iff_eq.mpr (nnn_and_F000 ..))

theorem seImm (x : Nibble) (nn : Byte) : Statement (.seImm x nn) :=
  of_row ⟨"3xnn", 0xF000, 0x3000⟩ rfl (by decide) (beq_iff_eq.mpr (xnn_and_F000 ..))

theorem sneImm (x : Nibble) (nn : Byte) : Statement (.sneImm x nn) :=
  of_row ⟨"4xnn", 0xF000, 0x4000⟩ rfl (by decide) (beq_iff_eq.mpr (xnn_and_F000 ..))

theorem seReg (x : Nibble) (y : Nibble) : Statement (.seReg x y) :=
  of_row ⟨"5xy0", 0xF00F, 0x5000⟩ rfl (by decide) (beq_iff_eq.mpr (wordOfNibbles_and_F00F ..))

theorem ldImm (x : Nibble) (nn : Byte) : Statement (.ldImm x nn) :=
  of_row ⟨"6xnn", 0xF000, 0x6000⟩ rfl (by decide) (beq_iff_eq.mpr (xnn_and_F000 ..))

theorem addImm (x : Nibble) (nn : Byte) : Statement (.addImm x nn) :=
  of_row ⟨"7xnn", 0xF000, 0x7000⟩ rfl (by decide) (beq_iff_eq.mpr (xnn_and_F000 ..))

theorem ldReg (x : Nibble) (y : Nibble) : Statement (.ldReg x y) :=
  of_row ⟨"8xy0", 0xF00F, 0x8000⟩ rfl (by decide) (beq_iff_eq.mpr (wordOfNibbles_and_F00F ..))

theorem orReg (x : Nibble) (y : Nibble) : Statement (.orReg x y) :=
  of_row ⟨"8xy1", 0xF00F, 0x8001⟩ rfl (by decide) (beq_iff_eq.mpr (wordOfNibbles_and_F00F ..))

theorem andReg (x : Nibble) (y : Nibble) : Statement (.andReg x y) :=
  of_row ⟨"8xy2", 0xF00F, 0x8002⟩ rfl (by decide) (beq_iff_eq.mpr (wordOfNibbles_and_F00F ..))

theorem xorReg (x : Nibble) (y : Nibble) : Statement (.xorReg x y) :=
  of_row ⟨"8xy3", 0xF00F, 0x8003⟩ rfl (by decide) (beq_iff_eq.mpr (wordOfNibbles_and_F00F ..))

theorem addReg (x : Nibble) (y : Nibble) : Statement (.addReg x y) :=
  of_row ⟨"8xy4", 0xF00F, 0x8004⟩ rfl (by decide) (beq_iff_eq.mpr (wordOfNibbles_and_F00F ..))

theorem subReg (x : Nibble) (y : Nibble) : Statement (.subReg x y) :=
  of_row ⟨"8xy5", 0xF00F, 0x8005⟩ rfl (by decide) (beq_iff_eq.mpr (wordOfNibbles_and_F00F ..))

theorem shr (x : Nibble) (y : Nibble) : Statement (.shr x y) :=
  of_row ⟨"8xy6", 0xF00F, 0x8006⟩ rfl (by decide) (beq_iff_eq.mpr (wordOfNibbles_and_F00F ..))

theorem subnReg (x : Nibble) (y : Nibble) : Statement (.subnReg x y) :=
  of_row ⟨"8xy7", 0xF00F, 0x8007⟩ rfl (by decide) (beq_iff_eq.mpr (wordOfNibbles_and_F00F ..))

theorem shl (x : Nibble) (y : Nibble) : Statement (.shl x y) :=
  of_row ⟨"8xyE", 0xF00F, 0x800E⟩ rfl (by decide) (beq_iff_eq.mpr (wordOfNibbles_and_F00F ..))

theorem sneReg (x : Nibble) (y : Nibble) : Statement (.sneReg x y) :=
  of_row ⟨"9xy0", 0xF00F, 0x9000⟩ rfl (by decide) (beq_iff_eq.mpr (wordOfNibbles_and_F00F ..))

theorem ldI (nnn : Imm12) : Statement (.ldI nnn) :=
  of_row ⟨"Annn", 0xF000, 0xA000⟩ rfl (by decide) (beq_iff_eq.mpr (nnn_and_F000 ..))

theorem jpV0 (nnn : Imm12) : Statement (.jpV0 nnn) :=
  of_row ⟨"Bnnn", 0xF000, 0xB000⟩ rfl (by decide) (beq_iff_eq.mpr (nnn_and_F000 ..))

theorem rnd (x : Nibble) (nn : Byte) : Statement (.rnd x nn) :=
  of_row ⟨"Cxnn", 0xF000, 0xC000⟩ rfl (by decide) (beq_iff_eq.mpr (xnn_and_F000 ..))

theorem drw (x : Nibble) (y : Nibble) (n : Nibble) : Statement (.drw x y n) :=
  of_row ⟨"Dxyn", 0xF000, 0xD000⟩ rfl (by decide) (beq_iff_eq.mpr (wordOfNibbles_and_F000 ..))

theorem skp (x : Nibble) : Statement (.skp x) :=
  of_row ⟨"Ex9E", 0xF0FF, 0xE09E⟩ rfl (by decide) (beq_iff_eq.mpr (xnn_and_F0FF ..))

theorem sknp (x : Nibble) : Statement (.sknp x) :=
  of_row ⟨"ExA1", 0xF0FF, 0xE0A1⟩ rfl (by decide) (beq_iff_eq.mpr (xnn_and_F0FF ..))

theorem ldVxDt (x : Nibble) : Statement (.ldVxDt x) :=
  of_row ⟨"Fx07", 0xF0FF, 0xF007⟩ rfl (by decide) (beq_iff_eq.mpr (xnn_and_F0FF ..))

theorem ldVxK (x : Nibble) : Statement (.ldVxK x) :=
  of_row ⟨"Fx0A", 0xF0FF, 0xF00A⟩ rfl (by decide) (beq_iff_eq.mpr (xnn_and_F0FF ..))

theorem ldDtVx (x : Nibble) : Statement (.ldDtVx x) :=
  of_row ⟨"Fx15", 0xF0FF, 0xF015⟩ rfl (by decide) (beq_iff_eq.mpr (xnn_and_F0FF ..))

theorem ldStVx (x : Nibble) : Statement (.ldStVx x) :=
  of_row ⟨"Fx18", 0xF0FF, 0xF018⟩ rfl (by decide) (beq_iff_eq.mpr (xnn_and_F0FF ..))

theorem addI (x : Nibble) : Statement (.addI x) :=
  of_row ⟨"Fx1E", 0xF0FF, 0xF01E⟩ rfl (by decide) (beq_iff_eq.mpr (xnn_and_F0FF ..))

theorem ldF (x : Nibble) : Statement (.ldF x) :=
  of_row ⟨"Fx29", 0xF0FF, 0xF029⟩ rfl (by decide) (beq_iff_eq.mpr (xnn_and_F0FF ..))

theorem ldB (x : Nibble) : Statement (.ldB x) :=
  of_row ⟨"Fx33", 0xF0FF, 0xF033⟩ rfl (by decide) (beq_iff_eq.mpr (xnn_and_F0FF ..))

theorem stRegs (x : Nibble) : Statement (.stRegs x) :=
  of_row ⟨"Fx55", 0xF0FF, 0xF055⟩ rfl (by decide) (beq_iff_eq.mpr (xnn_and_F0FF ..))

theorem ldRegs (x : Nibble) : Statement (.ldRegs x) :=
  of_row ⟨"Fx65", 0xF0FF, 0xF065⟩ rfl (by decide) (beq_iff_eq.mpr (xnn_and_F0FF ..))

end Sys2Proof.Laws.TableMask
end

