-- ==== Sys2Proof/Tests/Slice0.lean ====
section
/-! SUPPORT. Tests of the model. Expected results are from spec/30_encoding.md R97 (words written out bit by bit),
spec/95_test_vectors.md (a vector's name stands before its theorem), or hand calculation from the rule named. Then one
witness for every statement with hypotheses: a concrete state and operands that meet them, at the edges of each
clause. -/

namespace Sys2Proof.Tests

open Sys2Proof.Machine

/-- What a test looks at in the next state, or nothing when there is none. -/
def sees {α : Type} (o : Host.Outcome State Fault Refusal) (f : State → α) : Option α :=
  match o with
  | .next t => some (f t)
  | .fault _ => none
  | .refused _ => none

/-- The reset state with three registers set. -/
def regs (a b f : Byte) : State := ((State.reset.setReg 0x0#4 a).setReg 0x1#4 b).setReg vf f

/-- The reset state with `I` set and bytes stored from an address. -/
def atIndex (i : Word) (bytes : List Byte) (a : Nat) : State := writeBytes bytes a (State.reset.setI i)

/-- `V[0]` and `V[15]` after an instruction. -/
def resultAndFlag (i : Instr) (s : State) : Option (Byte × Byte) := sees (exec i s) fun t => (t.reg 0x0#4, t.reg vf)

/-! ### Well-formedness: an ill-formed term for the check -/

theorem test_wf_refuses_sys_00E0 : (Instr.sys 0x0E0#12).wf = false := by decide
theorem test_wf_refuses_sys_00EE : (Instr.sys 0x0EE#12).wf = false := by decide
theorem test_wf_accepts_sys : (Instr.sys 0x1E0#12).wf = true ∧ (Instr.sys 0xFEE#12).wf = true := by decide

/-! ### Decoding: every constructor from a word written out bit by bit (R97) -/

theorem test_decode_group0 : decodeWord 0b0000000011100000#16 = .ok .cls ∧
    decodeWord 0b0000000011101110#16 = .ok .ret ∧
    decodeWord 0b0000000100100011#16 = .ok (.sys 0x123#12) := ⟨rfl, rfl, rfl⟩

theorem test_decode_flow : decodeWord 0b0001101010111100#16 = .ok (.jp 0xABC#12) ∧
    decodeWord 0b0010001100000000#16 = .ok (.call 0x300#12) ∧
    decodeWord 0b1011001000010000#16 = .ok (.jpV0 0x210#12) := ⟨rfl, rfl, rfl⟩

theorem test_decode_skips : decodeWord 0b0011001100101010#16 = .ok (.seImm 0x3#4 0x2A#8) ∧
    decodeWord 0b0100001100101011#16 = .ok (.sneImm 0x3#4 0x2B#8) ∧
    decodeWord 0b0101000100100000#16 = .ok (.seReg 0x1#4 0x2#4) ∧
    decodeWord 0b1001000100100000#16 = .ok (.sneReg 0x1#4 0x2#4) := ⟨rfl, rfl, rfl, rfl⟩

theorem test_decode_immediates : decodeWord 0b0110111110101011#16 = .ok (.ldImm 0xF#4 0xAB#8) ∧
    decodeWord 0b0111001000100000#16 = .ok (.addImm 0x2#4 0x20#8) ∧
    decodeWord 0b1010001011110000#16 = .ok (.ldI 0x2F0#12) ∧
    decodeWord 0b1100001100001111#16 = .ok (.rnd 0x3#4 0x0F#8) := ⟨rfl, rfl, rfl, rfl⟩

theorem test_decode_moves : decodeWord 0b1000010110100000#16 = .ok (.ldReg 0x5#4 0xA#4) ∧
    decodeWord 0b1000010110100001#16 = .ok (.orReg 0x5#4 0xA#4) ∧
    decodeWord 0b1000010110100010#16 = .ok (.andReg 0x5#4 0xA#4) ∧
    decodeWord 0b1000010110100011#16 = .ok (.xorReg 0x5#4 0xA#4) := ⟨rfl, rfl, rfl, rfl⟩

theorem test_decode_arithmetic : decodeWord 0b1000010110100100#16 = .ok (.addReg 0x5#4 0xA#4) ∧
    decodeWord 0b1000010110100101#16 = .ok (.subReg 0x5#4 0xA#4) ∧
    decodeWord 0b1000010110100110#16 = .ok (.shr 0x5#4 0xA#4) ∧
    decodeWord 0b1000010110100111#16 = .ok (.subnReg 0x5#4 0xA#4) ∧
    decodeWord 0b1000010110101110#16 = .ok (.shl 0x5#4 0xA#4) := ⟨rfl, rfl, rfl, rfl, rfl⟩

theorem test_decode_display_and_keys : decodeWord 0b1101001010110101#16 = .ok (.drw 0x2#4 0xB#4 0x5#4) ∧
    decodeWord 0b1110001010011110#16 = .ok (.skp 0x2#4) ∧
    decodeWord 0b1110001010100001#16 = .ok (.sknp 0x2#4) := ⟨rfl, rfl, rfl⟩

theorem test_decode_groupF_a : decodeWord 0b1111010000000111#16 = .ok (.ldVxDt 0x4#4) ∧
    decodeWord 0b1111001100001010#16 = .ok (.ldVxK 0x3#4) ∧
    decodeWord 0b1111001000010101#16 = .ok (.ldDtVx 0x2#4) ∧
    decodeWord 0b1111010100011000#16 = .ok (.ldStVx 0x5#4) ∧
    decodeWord 0b1111010000011110#16 = .ok (.addI 0x4#4) := ⟨rfl, rfl, rfl, rfl, rfl⟩

theorem test_decode_groupF_b : decodeWord 0b1111000000101001#16 = .ok (.ldF 0x0#4) ∧
    decodeWord 0b1111001100110011#16 = .ok (.ldB 0x3#4) ∧
    decodeWord 0b1111001001010101#16 = .ok (.stRegs 0x2#4) ∧
    decodeWord 0b1111111101100101#16 = .ok (.ldRegs 0xF#4) := ⟨rfl, rfl, rfl, rfl⟩

/-- FL13: near misses of 00E0 and 00EE are SYS. -/
theorem test_decode_sys_near_misses : decodeWord 0x01E0#16 = .ok (.sys 0x1E0#12) ∧
    decodeWord 0x0FEE#16 = .ok (.sys 0xFEE#12) ∧ decodeWord 0x00E1#16 = .ok (.sys 0x0E1#12) := ⟨rfl, rfl, rfl⟩

/-- IL1 to IL5. -/
theorem test_decode_rejects_by_name : decodeWord 0x5121#16 = .error (.illegalGroup5 0x5121#16) ∧
    decodeWord 0x8008#16 = .error (.illegalGroup8 0x8008#16) ∧
    decodeWord 0x912F#16 = .error (.illegalGroup9 0x912F#16) ∧
    decodeWord 0xE19F#16 = .error (.illegalGroupE 0xE19F#16) ∧
    decodeWord 0xF075#16 = .error (.illegalGroupF 0xF075#16) := ⟨rfl, rfl, rfl, rfl, rfl⟩

theorem test_decode_bytes : decodeBytes [0x61#8, 0x0A#8, 0x80#8] = .ok (.ldImm 0x1#4 0x0A#8, [0x80#8]) ∧
    decodeBytes [0x61#8] = .error .truncated := ⟨rfl, rfl⟩

theorem test_opcode_table_rows : opcodeTable.length = 35 := by decide

theorem test_decodeTableWord : decodeTableWord 16 0x8014 = some (.addReg 0x0#4 0x1#4) ∧
    decodeTableWord 16 0x5121 = none := by decide

/-! ### One step of each instruction -/

/-- DR14. -/
theorem test_cls : sees (exec .cls ((State.reset.setFb (Vector.replicate 32 (BitVec.allOnes 64))).setReg vf 0x05#8))
    (fun t => (pixel t.fb 63 31, t.reg vf, t.pc)) = some (false, 0x05#8, 0x202#16) := by decide +kernel

/-- FL2, second step. -/
theorem test_ret_pops : sees (exec .ret (State.reset.push 0x202#16)) (fun t => (t.pc, t.sp)) = some (0x202#16, 0) := by
  decide

/-- FL3. -/
theorem test_ret_underflow : sees (exec .ret State.reset) (fun t => (t.run, t.pc)) =
    some (.halted (.stackUnderflow 0x200#16), 0x200#16) := by decide

/-- FL12. -/
theorem test_sys : sees (exec (.sys 0x123#12) State.reset) State.pc = some 0x202#16 := by decide

/-- FL1. -/
theorem test_jp : sees (exec (.jp 0xABC#12) State.reset) State.pc = some 0xABC#16 := by decide

/-- FL2, first step. -/
theorem test_call_pushes : sees (exec (.call 0x300#12) State.reset) (fun t => (t.pc, t.sp, t.stackEntry 0)) =
    some (0x300#16, 1, some 0x202#16) := by decide

/-- FL4, step 17. -/
theorem test_call_overflow : sees (exec (.call 0x200#12) { State.reset with stack := List.replicate 16 0x202#16 })
    (fun t => (t.run, t.sp)) = some (.halted (.stackOverflow 0x200#16), 16) := by decide

/-- FL6, first step. -/
theorem test_jpV0 : sees (exec (.jpV0 0xFFF#12) (regs 0xFF#8 0#8 0#8)) State.pc = some 0x10FE#16 := by decide

/-- SK1 and SK2. -/
theorem test_seImm : sees (exec (.seImm 0x0#4 0x2A#8) (regs 0x2A#8 0#8 0#8)) State.pc = some 0x204#16 ∧
    sees (exec (.seImm 0x0#4 0x2B#8) (regs 0x2A#8 0#8 0#8)) State.pc = some 0x202#16 := by decide

/-- SK3 and SK4. -/
theorem test_sneImm : sees (exec (.sneImm 0x0#4 0x2A#8) (regs 0x2A#8 0#8 0#8)) State.pc = some 0x202#16 ∧
    sees (exec (.sneImm 0x0#4 0x00#8) (regs 0x2A#8 0#8 0#8)) State.pc = some 0x204#16 := by decide

/-- SK5 and SK6. -/
theorem test_seReg : sees (exec (.seReg 0x0#4 0x1#4) (regs 7#8 7#8 0#8)) State.pc = some 0x204#16 ∧
    sees (exec (.seReg 0x0#4 0x1#4) (regs 7#8 8#8 0#8)) State.pc = some 0x202#16 := by decide

/-- SK8 and SK9. -/
theorem test_sneReg : sees (exec (.sneReg 0x0#4 0x1#4) (regs 7#8 8#8 0#8)) State.pc = some 0x204#16 ∧
    sees (exec (.sneReg 0x0#4 0x1#4) (regs 7#8 7#8 0#8)) State.pc = some 0x202#16 := by decide

/-- IM2. -/
theorem test_ldImm : sees (exec (.ldImm vf 0xAB#8) State.reset) (fun t => (t.reg vf, t.pc)) =
    some (0xAB#8, 0x202#16) := by decide

/-- IM4. -/
theorem test_addImm : resultAndFlag (.addImm 0x0#4 0x01#8) (regs 0xFF#8 0#8 0x01#8) = some (0x00#8, 0x01#8) := by decide

/-- AL1 to AL4. -/
theorem test_move_and_logic : resultAndFlag (.ldReg 0x0#4 0x1#4) (regs 0x12#8 0x34#8 1#8) = some (0x34#8, 1#8) ∧
    resultAndFlag (.orReg 0x0#4 0x1#4) (regs 0xF0#8 0x0F#8 1#8) = some (0xFF#8, 1#8) ∧
    resultAndFlag (.andReg 0x0#4 0x1#4) (regs 0xF3#8 0x3F#8 1#8) = some (0x33#8, 1#8) ∧
    resultAndFlag (.xorReg 0x0#4 0x1#4) (regs 0xFF#8 0x0F#8 1#8) = some (0xF0#8, 1#8) := by decide

/-- AL5 and AL6. -/
theorem test_addReg : resultAndFlag (.addReg 0x0#4 0x1#4) (regs 0xFF#8 0x01#8 0#8) = some (0x00#8, 1#8) ∧
    resultAndFlag (.addReg 0x0#4 0x1#4) (regs 0x01#8 0x01#8 1#8) = some (0x02#8, 0#8) := by decide

/-- AA1 (S3) and AA2 (S1). -/
theorem test_addReg_alias : resultAndFlag (.addReg vf 0x1#4) (regs 0xF0#8 0x7F#8 0xFF#8) = some (0xF0#8, 1#8) ∧
    resultAndFlag (.addReg 0x0#4 vf) (regs 0x10#8 0x20#8 0x90#8) = some (0xA0#8, 0#8) := by decide

/-- AL13, AL14 and AL17: the flag is signed and strict. -/
theorem test_subReg : resultAndFlag (.subReg 0x0#4 0x1#4) (regs 0x80#8 0x01#8 1#8) = some (0x7F#8, 0#8) ∧
    resultAndFlag (.subReg 0x0#4 0x1#4) (regs 0x01#8 0x80#8 0#8) = some (0x81#8, 1#8) ∧
    resultAndFlag (.subReg 0x0#4 0x1#4) (regs 0x07#8 0x07#8 1#8) = some (0x00#8, 0#8) := by decide

/-- AA4 (S1) and AA5 (S1): the flag is written first. -/
theorem test_subReg_alias : resultAndFlag (.subReg vf 0x1#4) (regs 0x10#8 0x20#8 0x90#8) = some (0x10#8, 0xE0#8) ∧
    resultAndFlag (.subReg 0x0#4 vf) (regs 0x10#8 0x20#8 0x90#8) = some (0x0F#8, 1#8) := by decide

/-- AL22 and AL23. -/
theorem test_shr : resultAndFlag (.shr 0x0#4 0x1#4) (regs 0xFF#8 0#8 0#8) = some (0x7F#8, 1#8) ∧
    resultAndFlag (.shr 0x0#4 0x1#4) (regs 0x80#8 0xAA#8 1#8) = some (0x40#8, 0#8) := by decide

/-- AL27 and AL28: the difference wraps before its sign is taken. -/
theorem test_subnReg : resultAndFlag (.subnReg 0x0#4 0x1#4) (regs 0x80#8 0x7F#8 0#8) = some (0xFF#8, 1#8) ∧
    resultAndFlag (.subnReg 0x0#4 0x1#4) (regs 0x01#8 0x80#8 1#8) = some (0x7F#8, 0#8) := by decide

/-- AA11 (S3): the difference is taken before the flag is written. -/
theorem test_subnReg_alias : resultAndFlag (.subnReg 0x0#4 vf) (regs 0xF0#8 0x7F#8 0xFF#8) = some (0x0F#8, 0#8) := by
  decide

/-- AL33, and AA13 (S1). -/
theorem test_shl : resultAndFlag (.shl 0x0#4 0x1#4) (regs 0xFF#8 0x55#8 0#8) = some (0xFE#8, 1#8) ∧
    resultAndFlag (.shl vf 0x1#4) (regs 0x10#8 0x20#8 0x90#8) = some (0x10#8, 0x02#8) := by decide

/-- IX1. -/
theorem test_ldI : sees (exec (.ldI 0x2F0#12) State.reset) (fun t => (t.i, t.pc)) = some (0x2F0#16, 0x202#16) := by
  decide

/-- IX3 and IX4. -/
theorem test_addI : sees (exec (.addI 0x0#4) ((regs 1#8 0#8 7#8).setI 0x0FFF#16)) (fun t => (t.i, t.reg vf)) =
      some (0x1000#16, 7#8) ∧
    sees (exec (.addI 0x0#4) ((regs 1#8 0#8 7#8).setI 0xFFFF#16)) (fun t => (t.i, t.reg vf)) =
      some (0x0000#16, 7#8) := by decide

/-- IX6 and IX7. -/
theorem test_ldF : sees (exec (.ldF 0x0#4) (regs 0x0A#8 0#8 0#8)) State.i = some 0x0032#16 ∧
    sees (exec (.ldF 0x0#4) (regs 0xFF#8 0#8 0#8)) State.i = some 0x04FB#16 := by decide

/-- IX8. -/
theorem test_ldB : sees (exec (.ldB 0x0#4) ((regs 0x9C#8 0#8 0#8).setI 0x300#16))
    (fun t => (readBytes t 0x300 3, t.i, t.pc)) = some ([1#8, 5#8, 6#8], 0x300#16, 0x202#16) := by decide

/-- IX12 and IX13. -/
theorem test_ldB_faults : sees (exec (.ldB 0x0#4) (State.reset.setI 0x004D#16)) State.run =
      some (.halted (.fontWrite 0x004D#16)) ∧
    sees (exec (.ldB 0x0#4) (State.reset.setI 0x0FFE#16)) State.run = some (.halted (.dataRange 0x1000#16)) := by decide

/-- IX15. -/
theorem test_stRegs : sees (exec (.stRegs 0x1#4) ((regs 0x11#8 0x22#8 0#8).setI 0x400#16))
    (fun t => (readBytes t 0x400 3, t.i)) = some ([0x11#8, 0x22#8, 0#8], 0x402#16) := by decide

/-- IX17 and IX20: nothing is stored. -/
theorem test_stRegs_faults : sees (exec (.stRegs 0x8#4) ((State.reset.setReg 0x7#4 0x77#8).setI 0xFF8#16))
      (fun t => (t.run, t.mem, t.i)) = some (.halted (.dataRange 0x1000#16), [], 0xFF8#16) ∧
    sees (exec (.stRegs 0x0#4) ((regs 0xAB#8 0#8 0#8).setI 0x4F#16)) (fun t => (t.run, t.readByte 0x4F)) =
      some (.halted (.fontWrite 0x4F#16), 0x80#8) := by decide

/-- IX21. -/
theorem test_ldRegs : sees (exec (.ldRegs 0x4#4) State.reset) (fun t => (readRegisters t 0 6, t.i)) =
    some ([0xF0#8, 0x90#8, 0x90#8, 0x90#8, 0xF0#8, 0#8], 5#16) := by decide

/-- IX23. -/
theorem test_ldRegs_fault : sees (exec (.ldRegs 0xF#4) ((regs 9#8 0#8 0#8).setI 0xFF1#16))
    (fun t => (t.run, t.reg 0x0#4, t.i)) = some (.halted (.dataRange 0x1000#16), 9#8, 0xFF1#16) := by decide

/-- RN1: `nn` is ignored. -/
theorem test_rnd : sees (exec (.rnd 0x3#4 0x0F#8) { State.reset with rands := [0xB7#8] })
    (fun t => (t.reg 0x3#4, t.rands, t.pc)) = some (0xB7#8, [], 0x202#16) := by decide

/-- DR4: rows wrap, the most significant bit is leftmost. -/
theorem test_drw_wraps : sees (exec (.drw 0x0#4 0x1#4 0x1#4)
    (((atIndex 0x300#16 [0xA5#8] 0x300).setReg 0x0#4 0x3C#8).setReg 0x1#4 5#8))
    (fun t => ((List.range 64).filter fun c => pixel t.fb c 5, t.reg vf)) = some ([1, 3, 60, 62], 0#8) := by
  decide +kernel

/-- DR8: one erasure sets the flag. -/
theorem test_drw_collides : sees (exec (.drw 0x2#4 0x2#4 0x1#4)
    ((atIndex 0x300#16 [0xC0#8] 0x300).setFb (xorPixel clearBuffer 0 0 true)))
    (fun t => (pixel t.fb 0 0, pixel t.fb 1 0, t.reg vf)) = some (false, true, 1#8) := by decide +kernel

/-- IN1 and IN4. -/
theorem test_skp : sees (exec (.skp 0x0#4) ((regs 0x0A#8 0#8 0#8).setKey (some 0xA#4))) State.pc = some 0x204#16 ∧
    sees (exec (.skp 0x0#4) ((regs 0x1A#8 0#8 0#8).setKey (some 0xA#4))) State.pc = some 0x202#16 := by decide

/-- IN5 and IN6. -/
theorem test_sknp : sees (exec (.sknp 0x0#4) ((regs 0x0A#8 0#8 0#8).setKey (some 0xA#4))) State.pc = some 0x202#16 ∧
    sees (exec (.sknp 0x0#4) (regs 0#8 0#8 0#8)) State.pc = some 0x204#16 := by decide

/-- TM1. -/
theorem test_ldVxDt : sees (exec (.ldVxDt 0x4#4) (State.reset.setDt 0x1E#8)) (fun t => (t.reg 0x4#4, t.dt)) =
    some (0x1E#8, 0x1E#8) := by decide

/-- IN8: the latched key does not satisfy the wait. -/
theorem test_ldVxK : sees (exec (.ldVxK 0x3#4) ((State.reset.setPc 0x210#16).setKey (some 5#4)))
    (fun t => (t.run, t.pc, t.reg 0x3#4)) = some (.waitingForKey 0x3#4, 0x210#16, 0#8) := by decide

/-- TM2. -/
theorem test_ldDtVx : sees (exec (.ldDtVx 0x0#4) (regs 2#8 0#8 0#8)) (fun t => (t.dt, t.pc)) =
    some (2#8, 0x202#16) := by decide

/-- TM8. -/
theorem test_ldStVx : sees (exec (.ldStVx 0x0#4) (regs 0x33#8 0#8 0#8)) (fun t => t) =
    some ((regs 0x33#8 0#8 0#8).setPc 0x202#16) := by decide +kernel

/-! ### The step cycle and the host's events -/

/-- IN12. -/
theorem test_key_ends_wait : sees (step { State.reset with run := .waitingForKey 0x3#4, events := [.keyEvent (some 7#4)] })
    (fun t => (t.run, t.pc, t.reg 0x3#4, t.key, t.events)) = some (.running, 0x202#16, 7#8, some 7#4, []) := by decide

/-- IN10 and TM9. -/
theorem test_events_that_end_nothing :
    sees (step { State.reset with run := .waitingForKey 0x3#4, events := [.keyEvent none] }) State.run =
      some (.waitingForKey 0x3#4) ∧
    sees (step { State.reset with run := .halted (.fetchRange 0xFFF#16), dt := 3#8, events := [.timerTick] })
      (fun t => (t.run, t.dt)) = some (.halted (.fetchRange 0xFFF#16), 2#8) := by decide

/-- R9, R200: what the host reads of a halted and of a waiting machine. -/
theorem test_outputs : (State.reset.setRun (.halted (.fetchRange 0xFFF#16))).output.halted = some (4, 0xFFF#16) ∧
    (State.reset.setRun (.waitingForKey 0x3#4)).output.waiting = true ∧ State.reset.output.halted = none := by decide

/-- IL6: the fetch check comes before decoding. -/
theorem test_fetch_check_first : sees (step ((atIndex 0#16 [0xFF#8] 0xFFF).setPc 0xFFF#16)) State.run =
    some (.halted (.fetchRange 0xFFF#16)) := by decide

/-- LD2. -/
theorem test_reset_too_long : romRun (List.replicate 3585 0#8) = .halted (.loadRange 0x0E01#16) := by decide +kernel

/-- LD4: an image of three bytes over a halted machine. -/
theorem test_reset_loads : sees (step (((State.reset.setRun (.halted (.fetchRange 0xFFF#16))).setPc 0xFFF#16).setEvents
      [.reset [0x60#8, 0x05#8, 0x61#8]]))
    (fun t => (t.run, t.pc, readBytes t 0x1FF 5)) =
    some (.running, 0x200#16, [0#8, 0x60#8, 0x05#8, 0x61#8, 0#8]) := by decide

/-- A table word placed and run as the first instruction after reset: 1201 (FL9) and 5121 (IL1). -/
theorem test_withFetchWord : sees (step (State.reset.withFetchWord 16 0x1201)) State.pc = some 0x201#16 ∧
    sees (step (State.reset.withFetchWord 16 0x5121)) (fun t => (t.run, t.pc)) =
      some (.halted (.illegalOpcode 0x5121#16), 0x200#16) := by decide

/-! ### Witnesses: for every statement with hypotheses, states and operands that meet them -/

/-- The reset state about to run the word `hi lo` at `pc`. -/
def running (pc : Word) (hi lo : Byte) : State := (writeBytes [hi, lo] pc.toNat State.reset).setPc pc

/-- The reset state with `I` set. -/
def indexAt (i : Word) : State := State.reset.setI i

/-- A state that waits for a key at F30A, one call deep. -/
def waiting : State := ((running 0x200#16 0xF3#8 0x0A#8).push 0x1000#16).setRun (.waitingForKey 0x3#4)

/-- A state halted by a fetch at 4095. -/
def halted : State := (State.reset.setPc 0xFFF#16).setRun (.halted (.fetchRange 0xFFF#16))

/-- A row of eight pixels in memory at 0x300, and `I` there. -/
def sprite : State := atIndex 0x300#16 [0xFF#8] 0x300

theorem test_witness_DecodeOfEncode : (Instr.sys 0xFFF#12).wf = true ∧ (Instr.shl 0xF#4 0xF#4).wf = true := by decide

theorem test_witness_EncodeOfDecode : decodeWord 0x00EE#16 = .ok .ret ∧ decodeWord 0x812E#16 = .ok (.shl 0x1#4 0x2#4) :=
  ⟨rfl, rfl⟩

theorem test_witness_IllegalWordsExactly :
    (opField 0x5121#16 = 0x5#4 ∧ nField 0x5121#16 ≠ 0x0#4) ∧ (opField 0x912F#16 = 0x9#4 ∧ nField 0x912F#16 ≠ 0x0#4) ∧
    (opField 0x800F#16 = 0x8#4 ∧ nField 0x800F#16 ∈ [0x8#4, 0x9#4, 0xA#4, 0xB#4, 0xC#4, 0xD#4, 0xF#4]) ∧
    (opField 0xE000#16 = 0xE#4 ∧ nnField 0xE000#16 ≠ 0x9E#8 ∧ nnField 0xE000#16 ≠ 0xA1#8) ∧
    (opField 0xF1FF#16 = 0xF#4 ∧
      nnField 0xF1FF#16 ∉ [0x07#8, 0x0A#8, 0x15#8, 0x18#8, 0x1E#8, 0x29#8, 0x33#8, 0x55#8, 0x65#8]) := by decide

theorem test_witness_StepRunsDecodedInstruction :
    (running 0xFFE#16 0x6F#8 0xAB#8).run = .running ∧ (running 0xFFE#16 0x6F#8 0xAB#8).pc.toNat ≤ 4094 ∧
    (Instr.ldImm vf 0xAB#8).wf = true ∧
    encodeBytes (.ldImm vf 0xAB#8) =
      [(running 0xFFE#16 0x6F#8 0xAB#8).readByte 0xFFE, (running 0xFFE#16 0x6F#8 0xAB#8).readByte 0xFFF] ∧
    (running 0xFFE#16 0x6F#8 0xAB#8).events = [] ∧
    ((running 0xFFE#16 0x6F#8 0xAB#8).setEvents [.step, .timerTick]).events = .step :: [.timerTick] := by decide

theorem test_witness_TakesStep (s : State) (rest : List HostEvent) : TakesStep (s.setEvents []) (s.setEvents []) ∧
    TakesStep (s.setEvents (.step :: rest)) (s.setEvents rest) := ⟨.inl ⟨rfl, rfl⟩, .inr ⟨rest, rfl, rfl⟩⟩

/-- With no event listed, and with `Step` at the head of the list (TakesStep above): a fetch at 4095, at 4094 (an
illegal word) and at 0. -/
theorem test_witness_StepStagesInOrder : ∀ e ∈ [[], [HostEvent.step, .timerTick]],
    ((running 0xFFF#16 0x51#8 0x21#8).setEvents e).run = .running ∧
    4094 < ((running 0xFFF#16 0x51#8 0x21#8).setEvents e).pc.toNat ∧
    ((running 0xFFE#16 0x51#8 0x21#8).setEvents e).run = .running ∧
    ((running 0xFFE#16 0x51#8 0x21#8).setEvents e).pc.toNat ≤ 4094 ∧
    (0x5121#16).toNat = 256 * (((running 0xFFE#16 0x51#8 0x21#8).setEvents e).readByte 0xFFE).toNat +
      (((running 0xFFE#16 0x51#8 0x21#8).setEvents e).readByte 0xFFF).toNat ∧
    (0x1234#16).toNat = 256 * (((running 0#16 0x12#8 0x34#8).setEvents e).readByte 0).toNat +
      (((running 0#16 0x12#8 0x34#8).setEvents e).readByte 1).toNat := by decide

theorem test_witness_StepStagesInOrder_words : (∀ i, decodeWord 0x5121#16 ≠ .ok i) ∧
    decodeWord 0x1234#16 = .ok (.jp 0x234#12) :=
  ⟨nofun, rfl⟩

theorem test_witness_StepIdleUnlessRunning : TakesStep waiting waiting ∧ waiting.run ≠ .running ∧
    TakesStep (halted.setEvents [.step, .step]) (halted.setEvents [.step]) ∧
    (halted.setEvents [.step, .step]).run ≠ .running := ⟨.inl ⟨rfl, rfl⟩, nofun, .inr ⟨_, rfl, rfl⟩, nofun⟩

theorem test_witness_StepTakesHostEvent : (waiting.setEvents [.keyEvent none]).events = .keyEvent none :: [] ∧
    (halted.setEvents [.timerTick, .step]).events = .timerTick :: [.step] ∧
    (halted.setEvents [.reset [0x12#8]]).events = .reset [0x12#8] :: [] ∧ waiting.events = [] := by decide

theorem test_witness_FatalErrorsArePrecise : ∀ s u, (s = running 0x200#16 0x00#8 0xEE#8 ∧ u = s) ∨
      (s = (running 0x200#16 0x00#8 0xEE#8).setEvents [.step, .timerTick] ∧ u = s.setEvents [.timerTick]) →
    TakesStep s u ∧ s.run = .running ∧ ∃ t, step s = .next t ∧ t.run = .halted (.stackUnderflow 0x200#16) := by
  rintro s u (⟨rfl, rfl⟩ | ⟨rfl, rfl⟩)
  · exact ⟨.inl ⟨rfl, rfl⟩, rfl, _, rfl, rfl⟩
  · exact ⟨.inr ⟨_, rfl, rfl⟩, rfl, _, rfl, rfl⟩

/-- The reset state about to run the word `hi lo` at 0x200, with `I` set. -/
def runningAt (i : Word) (hi lo : Byte) : State := (running 0x200#16 hi lo).setI i

/-- The reset state about to run 2300 with its stack full. -/
def fullStack : State := { running 0x200#16 0x23#8 0x00#8 with stack := List.replicate 16 0x202#16 }

/-- A state for each cause that a `Step` raises, with its `info`, at the edge of its range where it has one. -/
def causes : List (State × Fault) :=
  [(running 0xFFF#16 0x12#8 0x00#8, .fetchRange 0xFFF#16), (running 0x200#16 0x51#8 0x21#8, .illegalOpcode 0x5121#16),
   (running 0x200#16 0x00#8 0xEE#8, .stackUnderflow 0x200#16), (fullStack, .stackOverflow 0x200#16),
   (runningAt 4082#16 0xD0#8 0x1F#8, .dataRange 0x1000#16), (runningAt 4094#16 0xF0#8 0x33#8, .dataRange 0x1000#16),
   (runningAt 4081#16 0xFF#8 0x55#8, .dataRange 0x1000#16), (runningAt 0xFFFF#16 0xF0#8 0x65#8, .dataRange 0xFFFF#16),
   (runningAt 79#16 0xF0#8 0x33#8, .fontWrite 79#16), (runningAt 79#16 0xFF#8 0x55#8, .fontWrite 79#16)]

theorem test_witness_StepFault : ∀ c ∈ causes, StepFault c.2 c.1 := by
  simp only [causes, List.forall_mem_cons]
  refine ⟨⟨rfl, by decide⟩, ⟨rfl, nofun⟩, ⟨.ret, rfl, rfl, rfl, rfl⟩, ⟨.call 0x300#12, rfl, rfl, rfl, _, rfl⟩,
    ⟨.drw 0x0#4 0x1#4 0xF#4, rfl, by decide, .inl ⟨_, _, _, rfl, by decide, by decide⟩⟩,
    ⟨.ldB 0x0#4, rfl, by decide, .inr (.inl ⟨_, rfl, by decide, by decide⟩)⟩,
    ⟨.stRegs 0xF#4, rfl, by decide, .inr (.inr (.inl ⟨_, rfl, by decide, by decide⟩))⟩,
    ⟨.ldRegs 0x0#4, rfl, by decide, .inr (.inr (.inr ⟨_, rfl, by decide⟩))⟩,
    ⟨.ldB 0x0#4, rfl, rfl, by decide, _, .inl rfl⟩, ⟨.stRegs 0xF#4, rfl, rfl, by decide, _, .inr rfl⟩, nofun⟩

/-- One inside each edge, and Dxyn with no rows, nothing is raised. -/
theorem test_witness_OwnFault_none : ∀ c ∈ [(Instr.drw 0x0#4 0x1#4 0xF#4, 4081#16), (.drw 0x0#4 0x1#4 0x0#4, 0xFFFF#16),
      (.ldB 0x0#4, 80#16), (.ldB 0x0#4, 4093#16), (.stRegs 0xF#4, 80#16), (.stRegs 0xF#4, 4080#16),
      (.ldRegs 0x0#4, 0#16), (.ldRegs 0x0#4, 4095#16), (.call 0x300#12, 0#16), (.jp 0x300#12, 0#16)],
    ∀ f, ¬ OwnFault c.1 (indexAt c.2) f := by
  intro c hc f h
  simp only [List.mem_cons, List.not_mem_nil, or_false] at hc
  obtain rfl | rfl | rfl | rfl | rfl | rfl | rfl | rfl | rfl | rfl := hc <;> cases f <;>
    simp [OwnFault, indexAt, State.reset, State.sp, defaultConfig, defaultStackDepth] at h

/-- Each cause recorded in the state that raised it, and an image too long by one byte; a step from each. -/
theorem test_witness_HaltReportKept : (∀ c ∈ causes, FaultReport c.2 (c.1.setRun (.halted c.2))) ∧
    FaultReport (.loadRange 3585#16) halted ∧ HaltReportTrue halted ∧ ∃ t, step halted = .next t := by
  refine ⟨?_, by show 3584 < _; decide, fun f hf => ?_, _, rfl⟩
  · have h := test_witness_StepFault
    simp only [causes, List.forall_mem_cons] at h ⊢
    obtain ⟨h1, h2, h3, h4, h5, h6, h7, h8, h9, h10, -⟩ := h
    exact ⟨h1, h2, h3, h4, h5, h6, h7, h8, h9, h10, nofun⟩
  · cases hf
    exact ⟨rfl, by decide⟩

theorem test_witness_HaltedUntilReset : halted.run = .halted (.fetchRange 0xFFF#16) ∧
    ∃ t, step (halted.setEvents [.keyEvent (some 4#4)]) = .next t := ⟨rfl, _, rfl⟩

/-- A state for each row of the transition table, and the `.step` row with every cause, a key wait and neither, with
no event listed and with `Step` listed. -/
theorem test_witness_RunStateTransitions :
    (∃ t, step (halted.setEvents [.reset []]) = .next t) ∧ (∃ t, step (waiting.setEvents [.timerTick]) = .next t) ∧
    (∃ t, step (waiting.setEvents [.keyEvent (some 0#4)]) = .next t) ∧
    (∃ t, step (waiting.setEvents [.keyEvent none]) = .next t) ∧ (∃ t, step waiting = .next t) ∧
    (∃ t, step halted = .next t) ∧
    (∃ t, step (running 0x200#16 0xF3#8 0x0A#8) = .next t ∧ t.run = .waitingForKey 0x3#4) ∧
    (∃ t, step ((running 0x200#16 0x60#8 0x05#8).setEvents [.step]) = .next t ∧ t.run = .running) :=
  ⟨⟨_, rfl⟩, ⟨_, rfl⟩, ⟨_, rfl⟩, ⟨_, rfl⟩, ⟨_, rfl⟩, ⟨_, rfl⟩, ⟨_, rfl, rfl⟩, ⟨_, rfl, rfl⟩⟩

theorem test_witness_RunStateTransitions_causes :
    ∀ c ∈ causes, sees (step c.1) State.run = some (.halted c.2) ∧
      sees (step (c.1.setEvents [.step])) State.run = some (.halted c.2) := by decide +kernel

/-- A state halted by each cause. -/
theorem test_witness_OutputsReportRunState : halted.run = .halted (.fetchRange 0xFFF#16) ∧
    ∀ f ∈ [Fault.illegalOpcode 1#16, .stackUnderflow 1#16, .stackOverflow 1#16, .dataRange 1#16, .fontWrite 1#16,
      .loadRange 1#16], (halted.setRun (.halted f)).run = .halted f := by decide

theorem test_witness_InvariantKept : Inv waiting ∧ (∃ t, step waiting = .next t) ∧
    ∃ t, step (waiting.setEvents [.keyEvent (some 7#4)]) = .next t := by
  refine ⟨⟨by decide, by decide, by decide, ?_, ?_, by decide, ?_⟩, ⟨_, rfl⟩, ⟨_, rfl⟩⟩
  · intro d hd
    cases hd
    decide
  · intro a ha
    obtain rfl := List.mem_singleton.mp ha
    decide
  · intro x hx
    cases hx
    rfl

theorem test_witness_ResetMeetsInvariant : waiting.cfg.stackDepth ≠ some 0 := by decide

theorem test_witness_FontNeverOverwritten : (79 < 80) ∧
    (∃ t, step ((running 0x200#16 0xF0#8 0x55#8).setI 80#16) = .next t) ∧
    ∀ rom rest, ((running 0x200#16 0xF0#8 0x55#8).setI 80#16).events ≠ .reset rom :: rest :=
  ⟨by decide, ⟨_, rfl⟩, nofun⟩

theorem test_witness_WritesOnlyWhatTheTableLists : (∃ t, exec (.ldB 0x0#4) (indexAt 80#16) = .next t) ∧
    (∃ t, exec (.ldB 0x0#4) (indexAt 79#16) = .next t) := ⟨⟨_, rfl⟩, ⟨_, rfl⟩⟩

/-- A flag writer, a destination, and a block load that change register 15. -/
theorem test_witness_FlagRegisterWriters :
    (∃ t, exec (.addReg 0x0#4 0x1#4) (regs 0xFF#8 1#8 0#8) = .next t ∧ t.reg vf ≠ 0#8) ∧
    (∃ t, exec (.subReg vf 0x1#4) (regs 0#8 5#8 0#8) = .next t ∧ t.reg vf ≠ 0#8) ∧
    (∃ t, exec (.ldImm vf 5#8) State.reset = .next t ∧ t.reg vf ≠ 0#8) ∧
    (∃ t, exec (.ldRegs vf) State.reset = .next t ∧ t.reg vf ≠ 0#8) :=
  ⟨⟨_, rfl, by decide⟩, ⟨_, rfl, by decide⟩, ⟨_, rfl, by decide⟩, ⟨_, rfl, by decide⟩⟩

theorem test_witness_OnlyTheirInstructionsChange :
    (∃ t, step ((running 0x200#16 0x00#8 0xE0#8).setFb (xorPixel clearBuffer 0 0 true)) = .next t ∧
      t.fb ≠ xorPixel clearBuffer 0 0 true) ∧
    (∃ t, step (halted.setEvents [.keyEvent (some 4#4)]) = .next t ∧ t.key ≠ halted.key) ∧
    (∃ t, step (((running 0x200#16 0xF0#8 0x33#8).setI 0x300#16).setReg 0x0#4 7#8) = .next t ∧ t.readByte 0x302 ≠ 0#8) ∧
    (∃ t, step (running 0x200#16 0x23#8 0x00#8) = .next t ∧ t.stack ≠ []) :=
  ⟨⟨_, rfl, by decide +kernel⟩, ⟨_, rfl, by decide⟩, ⟨_, rfl, by decide⟩, ⟨_, rfl, by decide⟩⟩

theorem test_witness_DisplayOnlyObservedByCollision : Part.reg 0x0#4 ≠ .fb ∧ Part.reg 0x0#4 ≠ .reg vf ∧
    ∀ x y n, Instr.cls ≠ .drw x y n := ⟨by decide, by decide, nofun⟩

theorem test_witness_LatchAndTimerReaders : (∀ x, Instr.ldVxDt 0x0#4 ≠ .skp x ∧ Instr.ldVxDt 0x0#4 ≠ .sknp x) ∧
    (∀ x, Instr.skp 0x0#4 ≠ .ldVxDt x) ∧ Part.pc ≠ .key ∧ Part.pc ≠ .dt :=
  ⟨fun _ => ⟨nofun, nofun⟩, nofun, by decide, by decide⟩

/-- An empty stack; one entry, 4096, the largest the invariant allows, from which nothing can be fetched. -/
theorem test_witness_ReturnPopsOrUnderflows : State.reset.sp = 0 ∧ 0 < waiting.sp ∧ Inv waiting ∧
    ∃ t, exec .ret waiting = .next t ∧ 4094 < t.pc.toNat :=
  ⟨rfl, by decide, test_witness_InvariantKept.1, _, rfl, by decide⟩

theorem test_witness_NoOperationsOnlyAdvance : 0x0EF#12 ≠ 0x0E0#12 ∧ 0x0EF#12 ≠ 0x0EE#12 := by decide

theorem test_witness_JumpSetsPc : State.reset.pc.toNat = (0x200#12).toNat := by decide

theorem test_witness_CallPushesOrOverflows :
    { State.reset with stack := List.replicate 16 0#16 }.cfg.stackDepth =
      some { State.reset with stack := List.replicate 16 0#16 }.sp ∧
    { State.reset with stack := List.replicate 15 0#16 }.cfg.stackDepth ≠
      some { State.reset with stack := List.replicate 15 0#16 }.sp ∧
    { State.reset with cfg := ⟨defaultFontRom, none⟩ }.cfg.stackDepth ≠ some State.reset.sp := by decide

theorem test_witness_CallThenReturn : State.reset.cfg.stackDepth ≠ some State.reset.sp ∧
    ∃ t, exec (.call 0x300#12) State.reset = .next t := ⟨by decide, _, rfl⟩

theorem test_witness_JumpWithOffset : ∃ t, exec (.jpV0 0xFFF#12) State.reset = .next t ∧ 4094 < t.pc.toNat :=
  ⟨_, rfl, by decide⟩

theorem test_witness_EndedStepChangesNothing : Ended (running 0x20C#16 0x12#8 0x0C#8) ∧
    TakesStep (running 0x20C#16 0x12#8 0x0C#8) (running 0x20C#16 0x12#8 0x0C#8) ∧
    Ended ((running 0x20C#16 0x12#8 0x0C#8).setEvents [.step]) ∧
    TakesStep ((running 0x20C#16 0x12#8 0x0C#8).setEvents [.step]) ((running 0x20C#16 0x12#8 0x0C#8).setEvents []) :=
  ⟨⟨rfl, 0x20C#12, rfl, by decide⟩, .inl ⟨rfl, rfl⟩, ⟨rfl, 0x20C#12, rfl, by decide⟩, .inr ⟨_, rfl, rfl⟩⟩

theorem test_witness_AddImmediate : ∃ t u, exec (.ldImm vf 0xFF#8) State.reset = .next t ∧
    exec (.addImm vf 0x01#8) t = .next u := ⟨_, _, rfl, rfl⟩

theorem test_witness_AddRegisters : 0xE#4 ≠ vf := by decide

/-- `x = 0`, `y = 15`, and `x = 15`. -/
theorem test_witness_SubtractRegisters :
    1#8 = asFlag (sint8 ((regs 0x10#8 0x20#8 0x90#8).reg 0x0#4) > sint8 ((regs 0x10#8 0x20#8 0x90#8).reg vf)) ∧
    0#8 = asFlag (sint8 ((regs 0x10#8 0x20#8 0x90#8).reg vf) > sint8 ((regs 0x10#8 0x20#8 0x90#8).reg 0x1#4)) ∧
    0x10#8 = (if 0x0#4 = vf then 1#8 else (regs 0x10#8 0x20#8 0x90#8).reg 0x0#4) := by decide

theorem test_witness_ShiftRight : (1#8).toNat = ((regs 0xFF#8 0#8 0#8).reg 0x0#4).toNat % 2 ∧
    0xFF#8 = (if 0x0#4 = vf then 1#8 else (regs 0xFF#8 0#8 0#8).reg 0x0#4) ∧
    (1#8).toNat = ((regs 0#8 0#8 0xFF#8).reg vf).toNat % 2 := by decide

theorem test_witness_ReverseSubtract : (0xFE#8).toNat =
    (((regs 5#8 3#8 0#8).reg 0x1#4).toNat + 256 - ((regs 5#8 3#8 0#8).reg 0x0#4).toNat) % 256 := by decide

theorem test_witness_ShiftLeft : (1#8).toNat = ((regs 0xFF#8 0#8 0#8).reg 0x0#4).toNat / 128 ∧
    0xFF#8 = (if 0x0#4 = vf then 1#8 else (regs 0xFF#8 0#8 0#8).reg 0x0#4) ∧
    (0#8).toNat = ((regs 0#8 0#8 0x7F#8).reg vf).toNat / 128 := by decide

theorem test_witness_FlagAsOperandTable : 0xE#4 ≠ vf := by decide

/-- `I` at 79, 80, 4093, 4094 and 65535. -/
theorem test_witness_StoreDecimal : indexAddress (indexAt 79#16) < 80 ∧ 80 ≤ indexAddress (indexAt 80#16) ∧
    indexAddress (indexAt 4093#16) ≤ 4093 ∧ 4093 < indexAddress (indexAt 4094#16) ∧
    (0x1000#16).toNat = max (indexAt 4094#16).i.toNat 4096 ∧ (0xFFFF#16).toNat = max (indexAt 0xFFFF#16).i.toNat 4096 ∧
    Memory.wf sprite.cfg sprite.mem := by decide

/-- `I` at 79, 80, 4080 and 4081 with `x = 15`. -/
theorem test_witness_StoreRegisters : indexAddress (indexAt 79#16) < 80 ∧ 80 ≤ indexAddress (indexAt 80#16) ∧
    indexAddress (indexAt 4080#16) + (0xF#4).toNat ≤ 4095 ∧ 4095 < indexAddress (indexAt 4081#16) + (0xF#4).toNat ∧
    (0x1000#16).toNat = max (indexAt 4081#16).i.toNat 4096 ∧ (0xF#4).toNat ≤ (0xF#4).toNat ∧
    Memory.wf (indexAt 4080#16).cfg (indexAt 4080#16).mem := by decide

/-- `I` at 4095 and 4096 with `x = 0`, at 4081 with `x = 15`. -/
theorem test_witness_LoadRegisters : (indexAt 4095#16).i.toNat + (0x0#4).toNat ≤ 4095 ∧
    4095 < (indexAt 4096#16).i.toNat + (0x0#4).toNat ∧ 4095 < (indexAt 4081#16).i.toNat + (0xF#4).toNat ∧
    (0x1000#16).toNat = max (indexAt 4081#16).i.toNat 4096 ∧ (0x0#4).toNat < (0x1#4).toNat := by decide

theorem test_witness_StoreThenLoadRestores : Memory.wf (indexAt 4080#16).cfg (indexAt 4080#16).mem ∧
    80 ≤ (indexAt 4080#16).i.toNat ∧ (indexAt 4080#16).i.toNat + (0xF#4).toNat ≤ 4095 ∧
    ∃ t, exec (.stRegs 0xF#4) (indexAt 4080#16) = .next t := ⟨by decide, by decide, by decide, _, rfl⟩

theorem test_witness_StoreSeenByNextFetch : Memory.wf (indexAt 0x202#16).cfg (indexAt 0x202#16).mem ∧
    1 ≤ (0x1#4).toNat ∧ 80 ≤ (indexAt 0x202#16).i.toNat ∧ (indexAt 0x202#16).i.toNat + (0x1#4).toNat ≤ 4095 ∧
    (indexAt 0x202#16).i = (indexAt 0x202#16).pc + 2#16 ∧ ∃ t, exec (.stRegs 0x1#4) (indexAt 0x202#16) = .next t :=
  ⟨by decide, by decide, by decide, by decide, by decide, _, rfl⟩

/-- `n = 15` at 4081 and 4082, `n = 1` at 4096, `n = 0` anywhere. -/
theorem test_witness_DrawSprite : (indexAt 4081#16).i.toNat + (0xF#4).toNat ≤ 4096 ∧
    4096 < (indexAt 4082#16).i.toNat + (0xF#4).toNat ∧ 4096 < (indexAt 4096#16).i.toNat + (0x1#4).toNat ∧
    (0x1000#16).toNat = max (indexAt 4096#16).i.toNat 4096 ∧ 0 < (0x1#4).toNat ∧ (0x0#4).toNat = 0 := by decide

/-- A lit pixel under the sprite, and none. -/
theorem test_witness_DrawSprite_flag :
    (∃ cx < 64, ∃ cy < 32, pixel (sprite.setFb (xorPixel clearBuffer 7 0 true)).fb cx cy = true ∧
      Covers (sprite.setFb (xorPixel clearBuffer 7 0 true)) 1 0 0 cx cy) ∧
    ¬ ∃ cx < 64, ∃ cy < 32, pixel sprite.fb cx cy = true ∧ Covers sprite 1 0 0 cx cy := by
  refine ⟨⟨7, by decide, 0, by decide, by decide +kernel, 0, by decide, 7, by decide, rfl, rfl, by decide⟩, ?_⟩
  rintro ⟨cx, -, cy, -, h, -⟩
  exact absurd h (by simp [show sprite.fb = clearBuffer from rfl])

theorem test_witness_DrawTwiceRestores : sprite.i.toNat + (0x1#4).toNat ≤ 4096 ∧
    ∃ t u, exec (.drw 0x0#4 0x1#4 0x1#4) sprite = .next t ∧ t.reg 0x0#4 = sprite.reg 0x0#4 ∧
      t.reg 0x1#4 = sprite.reg 0x1#4 ∧ exec (.drw 0x0#4 0x1#4 0x1#4) t = .next u :=
  ⟨by decide, _, _, rfl, by decide, by decide, rfl⟩

theorem test_witness_KeySkips : (∃ k, (waiting.setKey (some 0#4)).key = some k ∧ k.toNat = (waiting.reg 0x0#4).toNat) ∧
    ¬ ∃ k, State.reset.key = some k ∧ k.toNat = (State.reset.reg 0x0#4).toNat :=
  ⟨⟨0#4, rfl, by decide⟩, by rintro ⟨k, h, -⟩; cases h⟩

theorem test_witness_KeyEventRule : waiting.run = .waitingForKey 0x3#4 ∧ (∀ x, halted.run ≠ .waitingForKey x) :=
  ⟨rfl, nofun⟩

theorem test_witness_TimerOnlyCountsDown :
    ∃ t, step ((running 0x200#16 0xF0#8 0x15#8).setReg 0x0#4 2#8) = .next t ∧ (0#8).toNat < t.dt.toNat :=
  ⟨_, rfl, by decide⟩

theorem test_witness_TimerAfterTicks : (waiting.setEvents [.timerTick, .timerTick, .step]).events =
    List.replicate 2 .timerTick ++ [.step] := by decide

/-- Images of 3584 and 3585 bytes; addresses 79, 80 and 0x1FF. -/
theorem test_witness_ResetRebuildsState : (List.replicate 3584 0xAB#8).length ≤ 3584 ∧
    3584 < (List.replicate 3585 0xAB#8).length ∧ (0 : Nat) < (List.replicate 3584 0xAB#8).length ∧
    (79 : Nat) < 80 ∧ (80 : Nat) ≤ 80 ∧ (0x1FF : Nat) < 0x200 := by
  rw [List.length_replicate, List.length_replicate]
  decide

theorem test_witness_ResetForgetsEverything : waiting.cfg = halted.cfg ∧ waiting ≠ halted := by decide +kernel

end Sys2Proof.Tests
end

section
/-! The host's side of the machine (spec/00_scope.md R8, R9): the event a step takes, and the outputs the host reads. -/

namespace Sys2Proof.Machine

/-! ### Events -/

/-- With an event listed, a step is that event's action on the state with the event taken off (R8, log entry 1). -/
theorem step_cons {s : State} {e : HostEvent} {rest : List HostEvent} (h : s.events = e :: rest) :
    step s = handleEvent e (s.setEvents rest) := cycle_cons h

/-- With no event listed, a step is the event `Step` on the state as it is (log entry 1). -/
theorem step_nil {s : State} (h : s.events = []) : step s = stepEvent s := cycle_nil h

/-- Settles O9: each clause is `step_cons` for one event, whose action `handleEvent` names; the last is `step_nil`. -/
theorem stepTakesHostEvent : Obligations.StepTakesHostEvent := fun _ _ =>
  ⟨fun _ => step_cons, step_cons, fun _ => step_cons, step_cons, step_nil⟩

/-! ### Outputs -/

theorem State.isWaiting_iff (s : State) : s.isWaiting = true ↔ ∃ x, s.run = .waitingForKey x := by
  cases h : s.run with
  | running => simp [State.isWaiting, h]
  | waitingForKey x => simp [State.isWaiting, h]
  | halted f => simp [State.isWaiting, h]

theorem State.fault?_eq_some_iff (s : State) (f : Fault) : s.fault? = some f ↔ s.run = .halted f := by
  cases h : s.run with
  | running => simp [State.fault?, h]
  | waitingForKey x => simp [State.fault?, h]
  | halted g => simp [State.fault?, h]

/-- No fatal error is reported exactly when the machine holds none. -/
theorem State.output_halted_eq_none_iff (s : State) : s.output.halted = none ↔ ∀ f, s.run ≠ .halted f := by
  rw [State.output, Option.map_eq_none_iff, Option.eq_none_iff_forall_ne_some]
  exact forall_congr' fun f => not_congr (s.fault?_eq_some_iff f)

/-- A halted machine reports the code and the info of the fatal error it holds (R200). -/
theorem State.output_halted_of_run (s : State) {f : Fault} (h : s.run = .halted f) :
    s.output.halted = some (f.code, f.info) := by
  simp only [State.output, (s.fault?_eq_some_iff f).mpr h, Option.map_some]

/-- Settles O15: the two signals by their `↔`, and the seven causes by `output_halted_of_run`, `Fault.code` and
`Fault.info` being the table of R200. -/
theorem outputsReportRunState : Obligations.OutputsReportRunState := fun s _ =>
  have report {f : Fault} : s.run = .halted f → s.output.halted = some (f.code, f.info) := s.output_halted_of_run
  ⟨rfl, s.isWaiting_iff, s.output_halted_eq_none_iff, report, report, report, report, report, report, report⟩

end Sys2Proof.Machine
end

section
/-! The frame of every instruction against the column "writes" of spec/10_state.md R39, and what follows from it: which
instructions can change `V[15]`, the display, memory, the call stack and the parameters. -/

namespace Sys2Proof.Machine

/-! ### Frames of the shared shapes -/

theorem Unchanged.symm {p : Part} {s t : State} (h : Unchanged p s t) : Unchanged p t s := by
  cases p <;> exact Eq.symm h

theorem State.setEvents_changesOnly (s : State) (es : List HostEvent) : ChangesOnly [.events] s (s.setEvents es) := by
  intro p hp
  cases p with
  | events => simp at hp
  | _ => rfl

theorem State.blit_changesOnly (s : State) (r : FrameBuffer × Bool) : ChangesOnly [.fb, .reg vf] s (s.blit r) :=
  (s.setFb_changesOnly r.1).andThen (State.setFlag_changesOnly _ r.2)

/-- A pop writes the stack and `PC` (R110). -/
theorem State.pop_changesOnly (s : State) (a : Word) (rest : List Word) :
    ChangesOnly [.stack, .pc] s { s with pc := a, stack := rest } := by
  intro p hp
  cases p with
  | stack | pc => simp at hp
  | _ => rfl

theorem ChangesOnly.comm {ps qs : List Part} {s t : State} (h : ChangesOnly (ps ++ qs) s t) :
    ChangesOnly (qs ++ ps) s t := h.mono fun _ hp => List.mem_append.mpr (List.mem_append.mp hp).symm

/-- Going on to the next instruction adds `PC` to a frame. -/
theorem ChangesOnly.advance {ps : List Part} {s t : State} (h : ChangesOnly ps s t) :
    ChangesOnly (ps ++ [.pc]) s t.advance := h.andThen t.advance_changesOnly

/-! ### Call and return (R110, R113) -/

section
variable {s : State}

theorem execRet_nil (h : s.stack = []) : execRet s = .next (s.setRun (.halted (.stackUnderflow s.pc))) := by
  rw [execRet, h]
  rfl

theorem execRet_cons {a : Word} {rest : List Word} (h : s.stack = a :: rest) :
    execRet s = .next { s with pc := a, stack := rest } := by
  rw [execRet, h]

theorem execCall_full {nnn : Imm12} (h : s.stackFull = true) :
    execCall nnn s = .next (s.setRun (.halted (.stackOverflow s.pc))) := if_pos h

theorem execCall_room {nnn : Imm12} (h : s.stackFull = false) :
    execCall nnn s = .next ((s.push (s.pc + 2#16)).setPc (zextAddress nnn)) := if_neg (by simp [h])

end

/-! ### The table of R39 -/

/-- R39, R207: an instruction changes only what the table lists for it, or takes a fatal error and changes `RUN`. -/
theorem exec_frame {i : Instr} {s t : State} (he : exec i s = .next t) :
    ChangesOnly (writes i s) s t ∨ ∃ f, t = s.setRun (.halted f) := by
  cases i with
  | cls =>
    cases he
    exact .inl (s.setFb_changesOnly _).advance
  | sys | ldStVx =>
    cases he
    exact .inl s.advance_changesOnly
  | jp | jpV0 =>
    cases he
    exact .inl (s.setPc_changesOnly _)
  | seImm | sneImm | seReg | sneReg | skp | sknp =>
    cases he
    exact .inl (s.skipIf_changesOnly _)
  | ldImm x | addImm x | ldReg x | orReg x | andReg x | xorReg x | ldVxDt x =>
    cases he
    exact .inl (s.setReg_changesOnly x _).advance
  | addReg x | subnReg x =>
    cases he
    exact .inl ((s.setReg_changesOnly x _).andThen (State.setFlag_changesOnly _ _)).advance
  | subReg x | shr x | shl x =>
    cases he
    exact .inl ((s.setFlag_changesOnly _).andThen (State.setReg_changesOnly _ x _)).comm.advance
  | ldI | addI | ldF =>
    cases he
    exact .inl (s.setI_changesOnly _).advance
  | rnd x =>
    cases he
    exact .inl ((s.drawn_changesOnly.andThen (State.setReg_changesOnly _ x _)).advance.mono (by simp [writes]))
  | ldDtVx =>
    cases he
    exact .inl (s.setDt_changesOnly _).advance
  | ldVxK =>
    cases he
    exact .inl (s.setRun_changesOnly _)
  | ret =>
    cases hs : s.stack with
    | nil =>
      cases (execRet_nil hs).symm.trans he
      exact .inr ⟨_, rfl⟩
    | cons a rest =>
      cases (execRet_cons hs).symm.trans he
      exact .inl (s.pop_changesOnly a rest)
  | call nnn =>
    cases hf : s.stackFull with
    | true =>
      cases (execCall_full hf).symm.trans he
      exact .inr ⟨_, rfl⟩
    | false =>
      cases (execCall_room hf).symm.trans he
      exact .inl ((s.push_changesOnly _).andThen (State.setPc_changesOnly _ _))
  | drw =>
    rcases guarded_eq_next he with ⟨-, rfl⟩ | ⟨f, -, rfl⟩
    · exact .inl (s.blit_changesOnly _).advance
    · exact .inr ⟨f, rfl⟩
  | ldB x =>
    rcases guarded_eq_next he with ⟨-, rfl⟩ | ⟨f, -, rfl⟩
    · exact .inl (writeBytes_changesOnly (decimalDigits (s.reg x)) (indexAddress s) s).advance.comm
    · exact .inr ⟨f, rfl⟩
  | stRegs x =>
    rcases guarded_eq_next he with ⟨-, rfl⟩ | ⟨f, -, rfl⟩
    · have hstore := writeBytes_changesOnly (readRegisters s 0 (blockCount x)) (indexAddress s) s
      rw [readRegisters_length] at hstore
      exact .inl (hstore.andThen (State.bumpI_changesOnly _ _).advance).comm
    · exact .inr ⟨f, rfl⟩
  | ldRegs x =>
    rcases guarded_eq_next he with ⟨-, rfl⟩ | ⟨f, -, rfl⟩
    · have hload := loadRegisters_changesOnly x (readBytes s (indexAddress s) (blockCount x)) s (readBytes_length ..)
      exact .inl (hload.andThen (State.bumpI_changesOnly _ _).advance).comm
    · exact .inr ⟨f, rfl⟩

/-- A part other than `RUN` that an instruction changes is listed for it in the table. -/
theorem mem_writes_of_changed {i : Instr} {s t : State} {p : Part} (he : exec i s = .next t) (hrun : p ≠ .run)
    (hchg : ¬ Unchanged p s t) : p ∈ writes i s := by
  by_contra hp
  rcases exec_frame he with h | ⟨f, rfl⟩
  · exact hchg (h p hp)
  · exact hchg (s.setRun_changesOnly _ p (by simpa using hrun))

/-! ### What the table lists -/

theorem reg_mem_regsUpTo {r x : Nibble} (h : Part.reg r ∈ regsUpTo x) : r.toNat ≤ x.toNat := by
  obtain ⟨k, hk, hr⟩ := List.mem_map.mp h
  cases hr
  rw [List.mem_range] at hk
  have hx := x.isLt
  rw [BitVec.toNat_ofNat]
  omega

theorem fb_mem_writes {i : Instr} {s : State} (h : Part.fb ∈ writes i s) : i = .cls ∨ ∃ x y n, i = .drw x y n := by
  cases i with
  | cls => exact .inl rfl
  | drw x y n => exact .inr ⟨x, y, n, rfl⟩
  | _ => simp [writes, bytesFrom, regsUpTo] at h

theorem key_notMem_writes (i : Instr) (s : State) : Part.key ∉ writes i s := by
  cases i <;> simp [writes, bytesFrom, regsUpTo]

theorem byte_mem_writes {i : Instr} {s : State} {a : Nat} (h : Part.byte a ∈ writes i s) :
    ∃ x, i = .ldB x ∨ i = .stRegs x := by
  cases i with
  | ldB x => exact ⟨x, .inl rfl⟩
  | stRegs x => exact ⟨x, .inr rfl⟩
  | _ => simp [writes, regsUpTo] at h

theorem stack_mem_writes {i : Instr} {s : State} (h : Part.stack ∈ writes i s) : i = .ret ∨ ∃ nnn, i = .call nnn := by
  cases i with
  | ret => exact .inl rfl
  | call nnn => exact .inr ⟨nnn, rfl⟩
  | _ => simp [writes, bytesFrom, regsUpTo] at h

theorem cfg_notMem_writes (i : Instr) (s : State) : Part.cfg ∉ writes i s := by
  cases i <;> simp [writes, bytesFrom, regsUpTo]

/-- The table looks at `I` only, not at what the host will issue. -/
@[simp] theorem writes_setEvents (i : Instr) (s : State) (es : List HostEvent) :
    writes i (s.setEvents es) = writes i s := by
  cases i <;> rfl

/-! ### Every step -/

/-- A key event writes at most the latch and, when it ends a wait, one register, `PC` and `RUN` (R189). -/
theorem keyEvent_frame (k : Option Nibble) (s : State) :
    ∃ x, ChangesOnly [.key, .reg x, .pc, .run] s (keyEvent k s) := by
  unfold keyEvent
  split
  · rename_i x c hr
    exact ⟨x, (((s.setKey_changesOnly _).andThen (State.setReg_changesOnly _ x _)).advance).andThen
      (State.setRun_changesOnly _ _)⟩
  · exact ⟨0#4, (s.setKey_changesOnly _).mono (by simp)⟩

/-- The event list and `RUN` aside, all a `Step` changes is what the table lists for the instruction about to run. -/
theorem mem_writes_of_stepEvent_changed {s t : State} {p : Part} (he : stepEvent s = .next t) (hrun : p ≠ .run)
    (hchg : ¬ Unchanged p s t) : ∃ i, AboutToRun s i ∧ p ∈ writes i s := by
  have halt (f : Fault) : Unchanged p s (s.setRun (.halted f)) := s.setRun_changesOnly _ p (by simpa using hrun)
  rcases stepEvent_cases he with ⟨-, rfl⟩ | ⟨-, -, rfl⟩ | ⟨-, w, -, -, rfl⟩ | ⟨hr, w, i, hw, hd, he⟩
  · exact absurd (ChangesOnly.refl t [] p List.not_mem_nil) hchg
  · exact absurd (halt _) hchg
  · exact absurd (halt _) hchg
  · exact ⟨i, ⟨hr, w, hw, hd⟩, mem_writes_of_changed he hrun hchg⟩

/-- Which step can change a part other than `RUN` and the event list: one whose instruction lists it in the table, a
key event, a tick, or a `Reset`. -/
theorem step_changed_cases {s t : State} {p : Part} (h : step s = .next t) (hrun : p ≠ .run) (hev : p ≠ .events)
    (hchg : ¬ Unchanged p s t) :
    (∃ i, AboutToRun s i ∧ p ∈ writes i s) ∨
    (∃ k rest, s.events = .keyEvent k :: rest ∧ ∃ x, p ∈ [.key, .reg x, .pc, .run]) ∨
    p = .dt ∨
    ∃ rom rest, s.events = .reset rom :: rest := by
  have taken (rest : List HostEvent) : ¬ Unchanged p (s.setEvents rest) t := fun hu =>
    hchg ((s.setEvents_changesOnly rest p (by simpa using hev)).trans hu)
  rcases step_cases h with ⟨rest, -, he⟩ | ⟨k, rest, hk, rfl⟩ | ⟨rest, -, rfl⟩ | ⟨rom, rest, hrom, -⟩
  · obtain ⟨i, hi, hp⟩ := mem_writes_of_stepEvent_changed he hrun (taken rest)
    exact .inl ⟨i, hi, by simpa using hp⟩
  · obtain ⟨x, hx⟩ := keyEvent_frame k (s.setEvents rest)
    exact .inr (.inl ⟨k, rest, hk, x, by_contra fun hp => taken rest (hx p hp)⟩)
  · refine .inr (.inr (.inl (by_contra fun hp => taken rest ?_)))
    exact timerTick_frame _ p (by simpa using hp)
  · exact .inr (.inr (.inr ⟨rom, rest, hrom⟩))

/-- Without a `Reset`, only an instruction whose row lists it changes a part that neither a key event nor a tick can
write. -/
theorem instruction_of_step_changed {s t : State} {p : Part} (h : step s = .next t)
    (hreset : ∀ rom rest, s.events ≠ .reset rom :: rest) (hp : ∀ x, p ∉ [.run, .events, .key, .reg x, .pc, .dt])
    (hchg : ¬ Unchanged p s t) : ∃ i, AboutToRun s i ∧ p ∈ writes i s := by
  have notRun : p ≠ .run := fun e => hp 0#4 (by simp [e])
  have notEvents : p ≠ .events := fun e => hp 0#4 (by simp [e])
  rcases step_changed_cases h notRun notEvents hchg with hi | ⟨-, -, -, x, hx⟩ | hdt | ⟨rom, rest, hr⟩
  · exact hi
  · refine absurd ?_ (hp x)
    simp only [List.mem_cons, List.not_mem_nil, or_false] at hx ⊢
    tauto
  · exact absurd (by simp [hdt]) (hp 0#4)
  · exact absurd hr (hreset rom rest)

/-! ### The flag register (R22, R23, R149, R150) -/

/-- A flag is 0 or 1 (R149). -/
theorem State.setFlag_bit (s : State) (c : Bool) : (s.setFlag c).reg vf = 0#8 ∨ (s.setFlag c).reg vf = 1#8 := by
  rw [s.setFlag_reg, if_pos rfl]
  cases c
  · exact .inl rfl
  · exact .inr rfl

/-- A result written after the flag leaves the flag, unless the result is register 15 (R150). -/
theorem State.setFlag_setReg_bit (s : State) (c : Bool) {x : Nibble} (b : Byte) (hx : x ≠ vf) :
    ((s.setFlag c).setReg x b).reg vf = 0#8 ∨ ((s.setFlag c).setReg x b).reg vf = 1#8 := by
  rw [State.setReg_reg_other _ b hx]
  exact s.setFlag_bit c

/-- Halving register 15 shifts the flag just written out of it (R146, R150). -/
theorem State.setFlag_halve_vf (s : State) (c : Bool) : ((s.setFlag c).halve vf).reg vf = 0#8 := by
  rw [State.halve, State.setReg_reg_self, s.setFlag_reg, if_pos rfl]
  cases c <;> rfl

theorem eq_vf_of_mem_regsUpTo {x : Nibble} (h : Part.reg vf ∈ regsUpTo x) : x = vf := by
  have hx := x.isLt
  have h15 : (15#4).toNat ≤ x.toNat := reg_mem_regsUpTo h
  exact BitVec.eq_of_toNat_eq (by simp only [vf, BitVec.toNat_ofNat] at *; omega)

/-! ### The statements -/

/-- Settles O19: `exec_frame`, a fatal error being `RUN` alone. -/
theorem writesOnlyWhatTheTableLists : Obligations.WritesOnlyWhatTheTableLists := by
  intro i s t he
  rcases exec_frame he with h | ⟨f, rfl⟩
  · exact .inl h
  · exact .inr ⟨f, rfl, s.setRun_changesOnly _⟩

/-- Settles O21: `instruction_of_step_changed` for each part, with the rows of the table that list it. -/
theorem onlyTheirInstructionsChange : Obligations.OnlyTheirInstructionsChange := by
  intro s t h hreset
  refine ⟨fun hne => ?_, fun hne => ?_, fun ⟨a, hne⟩ => ?_, fun hne => ?_, by_contra fun hne => ?_⟩
  · obtain ⟨i, hi, hp⟩ := instruction_of_step_changed (p := .fb) h hreset (by simp) hne
    rcases fb_mem_writes hp with rfl | ⟨x, y, n, rfl⟩
    · exact .inl hi
    · exact .inr ⟨x, y, n, hi⟩
  · rcases step_changed_cases (p := .key) h nofun nofun hne with ⟨i, -, hp⟩ | ⟨k, rest, hk, -⟩ | hp | ⟨rom, rest, hr⟩
    · exact absurd hp (key_notMem_writes i s)
    · exact ⟨k, rest, hk⟩
    · cases hp
    · exact absurd hr (hreset rom rest)
  · obtain ⟨i, hi, hp⟩ := instruction_of_step_changed (p := .byte a) h hreset (by simp) hne
    obtain ⟨x, rfl | rfl⟩ := byte_mem_writes hp
    · exact ⟨x, .inl hi⟩
    · exact ⟨x, .inr hi⟩
  · obtain ⟨i, hi, hp⟩ := instruction_of_step_changed (p := .stack) h hreset (by simp) hne
    rcases stack_mem_writes hp with rfl | ⟨nnn, rfl⟩
    · exact .inl hi
    · exact .inr ⟨nnn, hi⟩
  · obtain ⟨i, -, hp⟩ := instruction_of_step_changed (p := .cfg) h hreset (by simp) hne
    exact cfg_notMem_writes i s hp

/-- Settles O20: a changed `V[15]` is listed for the instruction in the table of R39, which leaves the flag writers and
those whose destination is register 15; the flag writers are looked at in the order of their writes (R150). -/
theorem flagRegisterWriters : Obligations.FlagRegisterWriters := by
  intro i s t he hne
  have hw : Part.reg vf ∈ writes i s := mem_writes_of_changed he nofun hne
  cases i with
  | addReg | subnReg =>
    cases he
    exact (State.setFlag_bit _ _).imp_right .inl
  | subReg x y =>
    cases he
    by_cases hx : x = vf
    · exact .inr (.inr ⟨y, .inl (by rw [hx])⟩)
    · exact (s.setFlag_setReg_bit _ _ hx).imp_right .inl
  | shl x y =>
    cases he
    by_cases hx : x = vf
    · exact .inr (.inr ⟨y, .inr (by rw [hx])⟩)
    · exact (s.setFlag_setReg_bit _ _ hx).imp_right .inl
  | shr x y =>
    cases he
    by_cases hx : x = vf
    · subst hx
      exact .inl (s.setFlag_halve_vf _)
    · exact (s.setFlag_setReg_bit _ _ hx).imp_right .inl
  | drw =>
    rcases guarded_eq_next he with ⟨-, rfl⟩ | ⟨f, -, rfl⟩
    · exact (State.setFlag_bit _ _).imp_right .inl
    · exact absurd rfl hne
  | ldImm | addImm | ldReg | orReg | andReg | xorReg | rnd | ldVxDt => simpa [writes, eq_comm] using hw
  | ldRegs => exact eq_vf_of_mem_regsUpTo (by simpa [writes] using hw)
  | cls | ret | sys | jp | call | seImm | sneImm | seReg | sneReg | ldI | jpV0 | skp | sknp | ldVxK | ldDtVx | ldStVx
  | addI | ldF | ldB | stRegs => simp [writes, bytesFrom] at hw

end Sys2Proof.Machine
end

section
/-! The invariants of the machine (spec/10_state.md R28 to R30, spec/20_memory.md R64, spec/47_input.md R188) are kept by
each instruction and by each event of the host, and met after every `Reset`. -/

namespace Sys2Proof.Machine

/-! ### Updates that keep the invariants -/

section
variable {s t : State}

/-- A change of `PC` within the bound of R28, in a machine that does not wait, keeps the invariants. -/
theorem Inv.of_pc (h : Inv s) (hcfg : t.cfg = s.cfg) (hmem : t.mem = s.mem) (hstack : t.stack = s.stack)
    (hpc : t.pc.toNat ≤ 4350) (hrun : ∀ x, t.run ≠ .waitingForKey x) : Inv t where
  memory_canonical := by rw [hcfg, hmem]; exact h.memory_canonical
  memory_storable := by rw [hmem]; exact h.memory_storable
  depth_positive := by rw [hcfg]; exact h.depth_positive
  stack_within_depth := by simpa only [hcfg, State.sp, hstack] using h.stack_within_depth
  return_addresses := by rw [hstack]; exact h.return_addresses
  pc_bounded := hpc
  waiting_at_key_wait x hx := absurd hx (hrun x)

/-- Taking a fatal error keeps the invariants (R206, R207). -/
theorem Inv.halt (h : Inv s) (f : Fault) : Inv (s.setRun (.halted f)) :=
  h.of_pc rfl rfl rfl h.pc_bounded nofun

theorem Inv.setEvents (h : Inv s) (es : List HostEvent) : Inv (s.setEvents es) := { h with }

theorem Inv.setKey (h : Inv s) (k : Option Nibble) : Inv (s.setKey k) := { h with }

theorem Inv.setDt (h : Inv s) (b : Byte) : Inv (s.setDt b) := { h with }

/-- A running machine does not wait. -/
theorem not_waiting_of_running (h : s.run = .running) (x : Nibble) : s.run ≠ .waitingForKey x := by simp [h]

/-- Where a word can be fetched, the next instruction and the one after it are within the bound of R28. -/
theorem pc_add_bounded {p k : Word} (hp : p.toNat ≤ 4094) (hk : k.toNat ≤ 4) : (p + k).toNat ≤ 4350 := by
  rw [BitVec.toNat_add]
  omega

/-- An instruction that goes on to the next one, with memory, stack and run state as they were, keeps the invariants. -/
theorem Inv.advanced (h : Inv s) (hrun : s.run = .running) (hp : s.pc.toNat ≤ 4094) (hcfg : t.cfg = s.cfg)
    (hmem : t.mem = s.mem) (hstack : t.stack = s.stack) (hr : t.run = s.run) (hpc : t.pc = s.pc + 2#16) : Inv t :=
  h.of_pc hcfg hmem hstack (hpc ▸ pc_add_bounded hp (by decide)) (not_waiting_of_running (hr.trans hrun))

/-- A skip keeps the invariants, taken or not. -/
theorem Inv.skipIf (h : Inv s) (hrun : s.run = .running) (hp : s.pc.toNat ≤ 4094) (c : Bool) : Inv (s.skipIf c) := by
  rw [State.skipIf_eq]
  exact h.of_pc rfl rfl rfl (pc_add_bounded hp (by cases c <;> decide)) (not_waiting_of_running hrun)

/-- A block store in the storable range keeps the invariants of a machine that does not wait (R64). -/
theorem Inv.writeBytes (h : Inv s) (hrun : s.run = .running) {bytes : List Byte} {a : Nat} (hlo : 80 ≤ a)
    (hhi : a + bytes.length ≤ 4096) : Inv (writeBytes bytes a s) where
  memory_canonical := by rw [writeBytes_cfg]; exact writeBytes_wf bytes a s h.memory_canonical
  memory_storable x hx := by
    rcases writeBytes_mem bytes a s hx with hx | hx
    · exact h.memory_storable x hx
    · omega
  depth_positive := by rw [writeBytes_cfg]; exact h.depth_positive
  stack_within_depth := by simpa only [writeBytes_cfg, State.sp, writeBytes_stack] using h.stack_within_depth
  return_addresses := by rw [writeBytes_stack]; exact h.return_addresses
  pc_bounded := by rw [writeBytes_pc]; exact h.pc_bounded
  waiting_at_key_wait x hx := absurd (by rwa [writeBytes_run] at hx) (not_waiting_of_running hrun x)

/-- The write check passes only on a range of storable addresses (R64, R65). -/
theorem storable_of_checkRange_write {a n : Nat} (hn : 0 < n) (h : checkRange checkWrite a n = .ok ()) :
    80 ≤ a ∧ a + n ≤ 4096 := by
  rw [checkRange_write_eq, if_neg (by omega)] at h
  split at h
  · cases h
  · split at h
    · omega
    · cases h

/-! ### Call and return (R29, R30, R110, R113) -/

theorem execRet_keeps_inv (h : Inv s) (hrun : s.run = .running) (he : execRet s = .next t) : Inv t := by
  cases hs : s.stack with
  | nil =>
    cases (execRet_nil hs).symm.trans he
    exact h.halt _
  | cons a rest =>
    cases (execRet_cons hs).symm.trans he
    have haddr := h.return_addresses
    have hdepth := h.stack_within_depth
    simp only [hs, List.mem_cons, forall_eq_or_imp, State.sp, List.length_cons] at haddr hdepth
    obtain ⟨⟨-, ha⟩, hrest⟩ := haddr
    exact { h with
      stack_within_depth := fun d hd => Nat.le_of_succ_le (hdepth d hd)
      return_addresses := hrest
      pc_bounded := show a.toNat ≤ 4350 by omega
      waiting_at_key_wait := fun x hx => absurd hx (not_waiting_of_running hrun x) }

/-- A stack that is not full has room for one more (R30). -/
theorem Inv.room (h : Inv s) (hfull : s.stackFull = false) {d : Nat} (hd : s.cfg.stackDepth = some d) : s.sp + 1 ≤ d := by
  have hle := h.stack_within_depth d hd
  have hne : d ≠ s.sp := fun e => absurd (s.stackFull_iff.mpr (e ▸ hd)) (by simp [hfull])
  omega

theorem zextAddress_toNat (nnn : Imm12) : (zextAddress nnn).toNat = nnn.toNat := by
  have := nnn.isLt
  simp only [zextAddress, BitVec.toNat_setWidth]
  omega

theorem execCall_keeps_inv (h : Inv s) (hrun : s.run = .running) (hp : s.pc.toNat ≤ 4094) {nnn : Imm12}
    (he : execCall nnn s = .next t) : Inv t := by
  cases hfull : s.stackFull with
  | true =>
    cases (execCall_full hfull).symm.trans he
    exact h.halt _
  | false =>
    cases (execCall_room hfull).symm.trans he
    have hret : (s.pc + 2#16).toNat = s.pc.toNat + 2 := by
      rw [BitVec.toNat_add, BitVec.toNat_ofNat]
      omega
    have hnnn := nnn.isLt
    exact { h with
      stack_within_depth := fun d hd => h.room hfull hd
      return_addresses := List.forall_mem_cons.mpr ⟨by omega, h.return_addresses⟩
      pc_bounded := show (zextAddress nnn).toNat ≤ 4350 by rw [zextAddress_toNat]; omega
      waiting_at_key_wait := fun x hx => absurd hx (not_waiting_of_running hrun x) }

/-! ### Every instruction -/

/-- The sum of Bnnn is at most 0xFF + 0xFFF (R28, R114). -/
theorem jumpTarget_bounded (b : Byte) (nnn : Imm12) : (zextByte b + zextAddress nnn).toNat ≤ 4350 := by
  have hb := b.isLt
  have hnnn := nnn.isLt
  rw [BitVec.toNat_add, zextAddress_toNat, zextByte, BitVec.toNat_setWidth]
  omega

/-- Every instruction whose word a running machine has fetched keeps the invariants. -/
theorem exec_keeps_inv {i : Instr} (h : Inv s) (hrun : s.run = .running) (hp : s.pc.toNat ≤ 4094)
    (hwait : ∀ x, i = .ldVxK x → fetchWord s = .ok (encode i)) (he : exec i s = .next t) : Inv t := by
  cases i with
  | cls | sys | ldImm | addImm | ldReg | orReg | andReg | xorReg | addReg | subReg | shr | subnReg | shl | ldI | rnd
  | ldVxDt | ldDtVx | ldStVx | addI | ldF =>
    cases he
    exact h.advanced hrun hp rfl rfl rfl rfl rfl
  | seImm | sneImm | seReg | sneReg | skp | sknp =>
    cases he
    exact h.skipIf hrun hp _
  | ret => exact execRet_keeps_inv h hrun he
  | call => exact execCall_keeps_inv h hrun hp he
  | jp nnn =>
    cases he
    have hnnn := nnn.isLt
    exact h.of_pc rfl rfl rfl (show (zextAddress nnn).toNat ≤ 4350 by rw [zextAddress_toNat]; omega)
      (not_waiting_of_running hrun)
  | jpV0 nnn =>
    cases he
    exact h.of_pc rfl rfl rfl (jumpTarget_bounded _ nnn) (not_waiting_of_running hrun)
  | ldVxK x =>
    cases he
    have hx : ∀ y, RunState.waitingForKey x = .waitingForKey y → fetchWord s = .ok (encode (.ldVxK y)) := by
      rintro y ⟨⟩
      exact hwait x rfl
    exact { h with waiting_at_key_wait := hx }
  | drw =>
    rcases guarded_eq_next he with ⟨-, rfl⟩ | ⟨f, -, rfl⟩
    · exact h.advanced hrun hp rfl rfl rfl rfl rfl
    · exact h.halt f
  | ldRegs =>
    rcases guarded_eq_next he with ⟨-, rfl⟩ | ⟨f, -, rfl⟩
    · exact h.advanced hrun hp (by simp) (by simp) (by simp) (by simp) (by simp)
    · exact h.halt f
  | ldB x =>
    rcases guarded_eq_next he with ⟨hc, rfl⟩ | ⟨f, -, rfl⟩
    · obtain ⟨hlo, hhi⟩ := storable_of_checkRange_write (by decide) hc
      exact (h.writeBytes (bytes := decimalDigits (s.reg x)) hrun hlo hhi).advanced (by simpa) (by simpa)
        rfl rfl rfl rfl rfl
    · exact h.halt f
  | stRegs x =>
    rcases guarded_eq_next he with ⟨hc, rfl⟩ | ⟨f, -, rfl⟩
    · obtain ⟨hlo, hhi⟩ := storable_of_checkRange_write (Nat.succ_pos _) hc
      exact (h.writeBytes (bytes := readRegisters s 0 (blockCount x)) hrun hlo (by simpa)).advanced (by simpa)
        (by simpa) rfl rfl rfl rfl rfl
    · exact h.halt f

/-! ### Every event -/

/-- Group F holds Fx0A on one low byte only (R94). -/
theorem decodeGroupF_eq_ldVxK {w : Word} {x : Nibble} (h : decodeGroupF w = .ok (.ldVxK x)) :
    nnField w = 0x0A#8 ∧ xField w = x := by
  unfold decodeGroupF at h
  split at h <;> cases h
  rename_i hnn
  exact ⟨hnn, rfl⟩

/-- No other group decodes to Fx0A (R94). -/
theorem decodeWord_eq_ldVxK_group {w : Word} {x : Nibble} (h : decodeWord w = .ok (.ldVxK x)) :
    opField w = 0xF#4 ∧ decodeGroupF w = .ok (.ldVxK x) := by
  unfold decodeWord at h
  split at h
  case h_1 =>
    unfold decodeGroup0 at h
    split at h
    · cases h
    · split at h <;> cases h
  case h_9 =>
    unfold decodeGroup8 at h
    split at h <;> cases h
  case h_15 =>
    unfold decodeGroupE at h
    split at h <;> cases h
  case h_16 =>
    refine ⟨nibble_eq_F ?_, h⟩
    simp only [List.mem_cons, List.not_mem_nil, or_false, not_or]
    and_intros <;> assumption
  case h_6 | h_10 =>
    split at h <;> cases h
  all_goals cases h

/-- The only word that decodes to Fx0A is Fx0A. -/
theorem decodeWord_eq_ldVxK {w : Word} {x : Nibble} (h : decodeWord w = .ok (.ldVxK x)) : w = encode (.ldVxK x) := by
  obtain ⟨hop, hF⟩ := decodeWord_eq_ldVxK_group h
  obtain ⟨hnn, rfl⟩ := decodeGroupF_eq_ldVxK hF
  calc w = wordOfXnn (opField w) (xField w) (nnField w) := (wordOfXnn_fields w).symm
    _ = encode (.ldVxK (xField w)) := by rw [hop, hnn]; rfl
theorem stepEvent_keeps_inv (h : Inv s) (he : stepEvent s = .next t) : Inv t := by
  rcases stepEvent_cases he with ⟨-, rfl⟩ | ⟨-, -, rfl⟩ | ⟨-, w, -, -, rfl⟩ | ⟨hrun, w, i, hw, hd, he⟩
  · exact h
  · exact h.halt _
  · exact h.halt _
  · refine exec_keeps_inv h hrun (fetchWord_ok hw).1 ?_ he
    rintro x rfl
    rw [hw, decodeWord_eq_ldVxK hd]

/-- A key that ends the wait finds `PC` at an Fx0A, so that the next instruction is within the bound (R189). -/
theorem keyEvent_keeps_inv (h : Inv s) (k : Option Nibble) : Inv (keyEvent k s) := by
  unfold keyEvent
  split
  · rename_i x c hr
    have hp := (fetchWord_ok (h.waiting_at_key_wait x hr)).1
    exact h.of_pc rfl rfl rfl (pc_add_bounded hp (by decide)) nofun
  · exact h.setKey _

theorem timerTick_keeps_inv (h : Inv s) : Inv (timerTick s) := by
  unfold timerTick
  split
  · exact h
  · exact h.setDt _

/-- The state after `Reset(rom)` runs or is halted, and never waits (R240, R242). -/
theorem romRun_not_waiting (rom : List Byte) (x : Nibble) : romRun rom ≠ .waitingForKey x := by
  unfold romRun
  split <;> nofun

theorem resetWith_inv (rom : List Byte) (h : s.cfg.stackDepth ≠ some 0) : Inv (resetWith rom s) where
  memory_canonical := romMemory_wf s.cfg rom
  memory_storable x hx := by
    have := romMemory_range s.cfg rom hx
    omega
  depth_positive := h
  stack_within_depth _ _ := Nat.zero_le _
  return_addresses := nofun
  pc_bounded := show (0x200#16).toNat ≤ 4350 by decide
  waiting_at_key_wait x hx := absurd hx (romRun_not_waiting rom x)

end

/-! ### The reset state -/

/-- The one fatal error a `Reset` records is LoadRange, of an image longer than 3584 bytes (R205, R242). -/
theorem resetWith_haltReportTrue (rom : List Byte) (s : State) : HaltReportTrue (resetWith rom s) := by
  intro f hf
  change romRun rom = .halted f at hf
  unfold romRun at hf
  split at hf
  · rename_i hlen
    cases hf
    simp only [maxRomSize, memSize, loadAddress] at hlen
    show 3584 < (BitVec.ofNat 16 (min rom.length 65535)).toNat
    rw [BitVec.toNat_ofNat]
    omega
  · cases hf

/-- `Reset` with an empty image gives the reset state back (R38). -/
theorem resetWith_nil_reset : resetWith [] State.reset = State.reset := rfl

/-! ### The statements -/

/-- Settles O16: the case split of `step_cases`, each event by its own lemma. -/
theorem invariantKept : Obligations.InvariantKept := by
  intro s t h hstep
  rcases step_cases hstep with ⟨rest, -, he⟩ | ⟨k, rest, -, rfl⟩ | ⟨rest, -, rfl⟩ | ⟨rom, rest, -, rfl⟩
  · exact stepEvent_keeps_inv (h.setEvents rest) he
  · exact keyEvent_keeps_inv (h.setEvents rest) k
  · exact timerTick_keeps_inv (h.setEvents rest)
  · exact resetWith_inv rom h.depth_positive

/-- Settles O17: the reset state is a `Reset` of itself. -/
theorem resetMeetsInvariant : Obligations.ResetMeetsInvariant :=
  have hreset (rom : List Byte) (s : State) (h : s.cfg.stackDepth ≠ some 0) :
      Inv (resetWith rom s) ∧ HaltReportTrue (resetWith rom s) :=
    ⟨resetWith_inv rom h, resetWith_haltReportTrue rom s⟩
  have ⟨hinv, hreport⟩ := hreset [] State.reset (by decide)
  ⟨resetWith_nil_reset ▸ hinv, resetWith_nil_reset ▸ hreport, hreset⟩

/-- Settles O60: `resetWith_nil_reset`, and the default parameters of R7 and R66 evaluated. -/
theorem resetStateIsEmptyReset : Obligations.ResetStateIsEmptyReset :=
  ⟨resetWith_nil_reset, rfl, rfl, rfl, by decide, by decide⟩

end Sys2Proof.Machine
end

section
/-! Noninterference of the display, the latch and the timer (spec/10_state.md R32 to R34): what an instruction that does
not read one of them does is the same whatever it holds. -/

namespace Sys2Proof.Machine

/-- The state with the display, the latch and the timer each changed by a function; `id` keeps one as it is. -/
def State.mapDevices (s : State) (F : FrameBuffer → FrameBuffer) (K : Option Nibble → Option Nibble) (D : Byte → Byte) :
    State := { s with fb := F s.fb, key := K s.key, dt := D s.dt }

section
variable (s : State) (F : FrameBuffer → FrameBuffer) (K : Option Nibble → Option Nibble) (D : Byte → Byte)

theorem State.setFb_eq_mapDevices (f : FrameBuffer) : s.setFb f = s.mapDevices (fun _ => f) id id := rfl
theorem State.setKey_eq_mapDevices (k : Option Nibble) : s.setKey k = s.mapDevices id (fun _ => k) id := rfl
theorem State.setDt_eq_mapDevices (b : Byte) : s.setDt b = s.mapDevices id id (fun _ => b) := rfl

theorem State.mapDevices_unchanged {p : Part} (hfb : p = .fb → F = id) (hkey : p = .key → K = id)
    (hdt : p = .dt → D = id) : Unchanged p s (s.mapDevices F K D) := by
  cases p with
  | fb => exact congrFun (hfb rfl) s.fb
  | key => exact congrFun (hkey rfl) s.key
  | dt => exact congrFun (hdt rfl) s.dt
  | _ => rfl

/-! ### The shared operations do not see the devices -/

theorem readBytes_mapDevices (a n : Nat) : readBytes (s.mapDevices F K D) a n = readBytes s a n := by
  induction n generalizing a with
  | zero => rfl
  | succ n ih => exact congrArg (s.readByte a :: ·) (ih (a + 1))

theorem readRegisters_mapDevices (k n : Nat) : readRegisters (s.mapDevices F K D) k n = readRegisters s k n := by
  induction n generalizing k with
  | zero => rfl
  | succ n ih => exact congrArg (s.reg (BitVec.ofNat 4 k) :: ·) (ih (k + 1))

theorem writeBytes_mapDevices (bytes : List Byte) (a : Nat) :
    writeBytes bytes a (s.mapDevices F K D) = (writeBytes bytes a s).mapDevices F K D := by
  induction bytes generalizing a s with
  | nil => rfl
  | cons b bs ih => exact ih (s.writeByte a b) (a + 1)

theorem loadRegisters_mapDevices (bytes : List Byte) (k : Nat) :
    loadRegisters bytes k (s.mapDevices F K D) = (loadRegisters bytes k s).mapDevices F K D := by
  induction bytes generalizing k s with
  | nil => rfl
  | cons b bs ih => exact ih (s.setReg (BitVec.ofNat 4 k) b) (k + 1)

theorem State.skipIf_mapDevices (c : Bool) : (s.mapDevices F K D).skipIf c = (s.skipIf c).mapDevices F K D := by
  cases c <;> rfl

/-! ### The same instruction, with the devices changed -/

/-- `i` answers next states from `s` and from `s` with the devices changed, and these differ by a change of the devices
that leaves alone each of them that was left alone before. -/
def BlindTo (i : Instr) (s : State) (F : FrameBuffer → FrameBuffer) (K : Option Nibble → Option Nibble)
    (D : Byte → Byte) : Prop :=
  ∃ (t : State) (F' : FrameBuffer → FrameBuffer) (D' : Byte → Byte), exec i s = .next t ∧
    exec i (s.mapDevices F K D) = .next (t.mapDevices F' K D') ∧ (F = id → F' = id) ∧ (D = id → D' = id)

variable {s F K D}

theorem BlindTo.of_same {i : Instr} {t : State} (h : exec i s = .next t)
    (h' : exec i (s.mapDevices F K D) = .next (t.mapDevices F K D)) : BlindTo i s F K D :=
  ⟨t, F, D, h, h', id, id⟩

/-- A guarded instruction whose check and result do not see the devices. -/
theorem BlindTo.of_guarded {i : Instr} {check : Except Fault Unit} {t : State} (h : exec i s = guarded check s t)
    (h' : exec i (s.mapDevices F K D) = guarded check (s.mapDevices F K D) (t.mapDevices F K D)) : BlindTo i s F K D := by
  cases check with
  | error f => exact .of_same (t := s.setRun (.halted f)) h h'
  | ok => exact .of_same h h'

/-- The device that `i` reads, if it reads one, is left alone: Dxyn reads the display (R32), Ex9E and ExA1 the latch
(R33), Fx07 the timer (R34). -/
def ReadsOnlyKept (i : Instr) (F : FrameBuffer → FrameBuffer) (K : Option Nibble → Option Nibble) (D : Byte → Byte) :
    Prop :=
  match i with
  | .drw _ _ _ => F = id
  | .skp _ | .sknp _ => K = id
  | .ldVxDt _ => D = id
  | _ => True

/-- An instruction is blind to a change of the devices it does not read. -/
theorem exec_blindTo (i : Instr) (h : ReadsOnlyKept i F K D) : BlindTo i s F K D := by
  cases i with
  | sys | jp | ldImm | addImm | ldReg | orReg | andReg | xorReg | addReg | subReg | shr | subnReg | shl | ldI | jpV0
  | rnd | ldVxK | ldStVx | addI | ldF => exact .of_same rfl rfl
  | seImm | sneImm | seReg | sneReg => exact .of_same rfl (congrArg _ (s.skipIf_mapDevices F K D _))
  | cls => exact ⟨_, id, D, rfl, rfl, fun _ => rfl, id⟩
  | ldDtVx => exact ⟨_, F, id, rfl, rfl, id, fun _ => rfl⟩
  | ldVxDt =>
    obtain rfl : D = id := h
    exact .of_same rfl rfl
  | skp | sknp =>
    obtain rfl : K = id := h
    exact .of_same rfl (congrArg _ (s.skipIf_mapDevices F id D _))
  | ret =>
    cases hs : s.stack with
    | nil => exact .of_same (execRet_nil hs) (execRet_nil hs)
    | cons a rest => exact .of_same (execRet_cons hs) (execRet_cons hs)
  | call =>
    cases hf : s.stackFull with
    | true => exact .of_same (execCall_full hf) (execCall_full hf)
    | false => exact .of_same (execCall_room hf) (execCall_room hf)
  | drw x y n =>
    obtain rfl : F = id := h
    refine .of_guarded rfl ?_
    show execDrw _ _ _ _ = _
    rw [execDrw, readBytes_mapDevices]
    rfl
  | ldB x =>
    refine .of_guarded rfl ?_
    show execLdB _ _ = _
    rw [execLdB, writeBytes_mapDevices]
    rfl
  | stRegs x =>
    refine .of_guarded rfl ?_
    show execStRegs _ _ = _
    rw [execStRegs, readRegisters_mapDevices, writeBytes_mapDevices]
    rfl
  | ldRegs x =>
    refine .of_guarded rfl ?_
    show execLdRegs _ _ = _
    rw [execLdRegs, readBytes_mapDevices, loadRegisters_mapDevices]
    rfl

/-- Every device that was left alone reads the same in the two next states, and so does all the rest of the state. -/
theorem BlindTo.unchanged {i : Instr} (h : BlindTo i s F K D) :
    ∃ t u, exec i s = .next t ∧ exec i (s.mapDevices F K D) = .next u ∧
      ∀ p, (p = .fb → F = id) → (p = .key → K = id) → (p = .dt → D = id) → Unchanged p t u := by
  obtain ⟨t, F', D', ht, hu, hF, hD⟩ := h
  exact ⟨t, _, ht, hu, fun p hfb hkey hdt =>
    t.mapDevices_unchanged _ _ _ (fun e => hF (hfb e)) hkey fun e => hD (hdt e)⟩

end

/-! ### Which device an instruction reads -/

theorem readsOnlyKept_of_not_draw {i : Instr} (h : ∀ x y n, i ≠ .drw x y n) (F : FrameBuffer → FrameBuffer) :
    ReadsOnlyKept i F id id := by
  cases i with
  | drw x y n => exact absurd rfl (h x y n)
  | skp | sknp | ldVxDt => rfl
  | _ => trivial

theorem readsOnlyKept_of_not_keySkip {i : Instr} (h : ∀ x, i ≠ .skp x ∧ i ≠ .sknp x)
    (K : Option Nibble → Option Nibble) : ReadsOnlyKept i id K id := by
  cases i with
  | skp x => exact absurd rfl (h x).1
  | sknp x => exact absurd rfl (h x).2
  | drw | ldVxDt => rfl
  | _ => trivial

theorem readsOnlyKept_of_not_timerRead {i : Instr} (h : ∀ x, i ≠ .ldVxDt x) (D : Byte → Byte) :
    ReadsOnlyKept i id id D := by
  cases i with
  | ldVxDt x => exact absurd rfl (h x)
  | drw | skp | sknp => rfl
  | _ => trivial

/-! ### Dxyn and the display -/

section
variable {s : State} {x y n : Nibble}

theorem execDrw_of_error {e : Fault} (h : checkRange checkRead (indexAddress s) n.toNat = .error e) :
    exec (.drw x y n) s = .next (s.setRun (.halted e)) := congrArg (guarded · s _) h

/-- The next state of a Dxyn that raises no fatal error differs from `s.advance` by a blit. -/
theorem execDrw_of_ok (h : checkRange checkRead (indexAddress s) n.toNat = .ok ()) :
    ∃ r, exec (.drw x y n) s = .next (s.advance.blit r) := ⟨_, congrArg (guarded · s _) h⟩

end

/-- Two states that differ only in the display go, under Dxyn, to states that differ at most in the display and the
collision flag: the range check does not see the display (R32, R180). -/
theorem drw_display_noninterference (x y n : Nibble) (s : State) (f : FrameBuffer) :
    ∃ t u, exec (.drw x y n) s = .next t ∧ exec (.drw x y n) (s.setFb f) = .next u ∧
      ChangesOnly [.fb, .reg vf] t u := by
  cases hc : checkRange checkRead (indexAddress s) n.toNat with
  | error e =>
    refine ⟨_, _, execDrw_of_error hc, execDrw_of_error (s := s.setFb f) hc, ?_⟩
    exact ((s.setRun (.halted e)).setFb_changesOnly f).mono (by simp)
  | ok =>
    obtain ⟨r, ht⟩ := execDrw_of_ok (x := x) (y := y) hc
    obtain ⟨r', hu⟩ := execDrw_of_ok (s := s.setFb f) (x := x) (y := y) hc
    refine ⟨_, _, ht, hu, fun p hp => ?_⟩
    have display : ChangesOnly [.fb, .reg vf] s.advance (s.setFb f).advance :=
      (s.advance.setFb_changesOnly f).mono (by simp)
    exact (s.advance.blit_changesOnly r p hp).symm.trans
      ((display p hp).trans ((s.setFb f).advance.blit_changesOnly r' p hp))

/-! ### The statements -/

/-- Settles O22: `drw_display_noninterference` for Dxyn, and every other instruction is blind to the display. -/
theorem displayOnlyObservedByCollision : Obligations.DisplayOnlyObservedByCollision := by
  intro i s f
  by_cases hdraw : ∃ x y n, i = .drw x y n
  · obtain ⟨x, y, n, rfl⟩ := hdraw
    obtain ⟨t, u, ht, hu, h⟩ := drw_display_noninterference x y n s f
    exact ⟨t, u, ht, hu, fun p hfb hflag => h p (by simp [hfb, hflag ⟨x, y, n, rfl⟩])⟩
  · have hkept := readsOnlyKept_of_not_draw (fun x y n e => hdraw ⟨x, y, n, e⟩) fun _ => f
    obtain ⟨t, u, ht, hu, h⟩ := (exec_blindTo (s := s) i hkept).unchanged
    exact ⟨t, u, ht, hu, fun p hfb _ => h p (absurd · hfb) (fun _ => rfl) fun _ => rfl⟩

/-- Settles O23: every instruction but the readers of R33 and R34 is blind to the latch, and to the timer. -/
theorem latchAndTimerReaders : Obligations.LatchAndTimerReaders := by
  intro i s k b
  refine ⟨fun hskip => ?_, fun hread => ?_⟩
  · obtain ⟨t, u, ht, hu, h⟩ := (exec_blindTo (s := s) i (readsOnlyKept_of_not_keySkip hskip fun _ => k)).unchanged
    exact ⟨t, u, ht, hu, fun p hkey => h p (fun _ => rfl) (absurd · hkey) fun _ => rfl⟩
  · obtain ⟨t, u, ht, hu, h⟩ := (exec_blindTo (s := s) i (readsOnlyKept_of_not_timerRead hread fun _ => b)).unchanged
    exact ⟨t, u, ht, hu, fun p hdt => h p (fun _ => rfl) (fun _ => rfl) (absurd · hdt)⟩

end Sys2Proof.Machine
end

section
/-! Stores and what reads see of them (spec/20_memory.md): no step writes below address 80 (R64), and the bytes Fx55
stored are what the next fetch reads (R70, R73). -/

namespace Sys2Proof.Machine

/-! ### The font region (R60, R64) -/

section
variable {s t : State}

/-- A range that passes the write check holds no byte of the font (R64, R65). -/
theorem storable_of_mem_bytesFrom {a b n : Nat} (hc : checkRange checkWrite b n = .ok ())
    (h : Part.byte a ∈ bytesFrom b n) : 80 ≤ a := by
  obtain ⟨k, hk, rfl⟩ : ∃ k < n, b + k = a := by simpa [bytesFrom] using h
  have hlo := (storable_of_checkRange_write (by omega) hc).1
  omega

/-- No instruction changes a byte below 80: the two that store check their whole range before they do (R64, R65). -/
theorem exec_readByte_font {i : Instr} {a : Nat} (ha : a < 80) (he : exec i s = .next t) :
    t.readByte a = s.readByte a := by
  by_contra hchg
  have hw : Part.byte a ∈ writes i s := mem_writes_of_changed he nofun hchg
  obtain ⟨x, rfl | rfl⟩ := byte_mem_writes hw
  · rcases guarded_eq_next he with ⟨hc, -⟩ | ⟨f, -, rfl⟩
    · exact absurd ha (Nat.not_lt.mpr (storable_of_mem_bytesFrom hc (by simpa [writes] using hw)))
    · exact hchg rfl
  · rcases guarded_eq_next he with ⟨hc, -⟩ | ⟨f, -, rfl⟩
    · exact absurd ha (Nat.not_lt.mpr (storable_of_mem_bytesFrom hc (by simpa [writes] using hw)))
    · exact hchg rfl

theorem stepEvent_readByte_font {a : Nat} (ha : a < 80) (he : stepEvent s = .next t) :
    t.readByte a = s.readByte a := by
  rcases stepEvent_cases he with ⟨-, rfl⟩ | ⟨-, -, rfl⟩ | ⟨-, w, -, -, rfl⟩ | ⟨-, w, i, -, -, he⟩
  · rfl
  · rfl
  · rfl
  · exact exec_readByte_font ha he

theorem keyEvent_readByte (k : Option Nibble) (s : State) (a : Nat) : (keyEvent k s).readByte a = s.readByte a := by
  obtain ⟨x, hx⟩ := keyEvent_frame k s
  exact hx (.byte a) (by simp)

theorem timerTick_readByte (s : State) (a : Nat) : (timerTick s).readByte a = s.readByte a :=
  timerTick_frame s (.byte a) (by simp)

end

/-! ### Fx55 on storable addresses (R164) -/

/-- The write check passes on every range of storable addresses (R64, R65). -/
theorem checkRange_write_of_storable {a n : Nat} (hlo : 80 ≤ a) (hhi : a + n ≤ 4096) :
    checkRange checkWrite a n = .ok () := by
  rw [checkRange_write_eq, if_neg (by omega : ¬ a < 80), if_pos hhi, ite_self]

section
variable {s t : State} {x : Nibble}

theorem exec_stRegs_of_storable (hlo : 80 ≤ s.i.toNat) (hhi : s.i.toNat + x.toNat ≤ 4095) :
    exec (.stRegs x) s = .next
      ((writeBytes (readRegisters s 0 (blockCount x)) (indexAddress s) s).bumpI (blockCount x)).advance := by
  have hc : checkRange checkWrite (indexAddress s) (blockCount x) = .ok () :=
    checkRange_write_of_storable hlo (Nat.succ_le_succ hhi)
  exact congrArg (guarded · s _) hc

/-- Fx55 leaves `V[r]` in the byte `r` places above `I`, for every `r` up to `x`. -/
theorem exec_stRegs_readByte (hm : Memory.wf s.cfg s.mem) (hlo : 80 ≤ s.i.toNat) (hhi : s.i.toNat + x.toNat ≤ 4095)
    (he : exec (.stRegs x) s = .next t) {r : Nibble} (hr : r.toNat ≤ x.toNat) :
    t.readByte (s.i.toNat + r.toNat) = s.reg r := by
  cases (exec_stRegs_of_storable hlo hhi).symm.trans he
  have hlt : r.toNat < blockCount x := Nat.lt_succ_of_le hr
  calc (writeBytes (readRegisters s 0 (blockCount x)) (indexAddress s) s).readByte (indexAddress s + r.toNat)
      = (readRegisters s 0 (blockCount x))[r.toNat]'(by simpa using hlt) :=
        writeBytes_readByte_inside _ _ _ hm (by simpa using hlt)
    _ = s.reg (BitVec.ofNat 4 (0 + r.toNat)) := readRegisters_getElem s 0 _ hlt
    _ = s.reg r := by simp

theorem exec_stRegs_pc (hlo : 80 ≤ s.i.toNat) (hhi : s.i.toNat + x.toNat ≤ 4095) (he : exec (.stRegs x) s = .next t) :
    t.pc = s.pc + 2#16 := by
  cases (exec_stRegs_of_storable hlo hhi).symm.trans he
  simp

end

/-! ### The statements -/

/-- Settles O18: the case split of `step_cases`; of the events only `Step` runs an instruction, and `Reset` is
excluded. -/
theorem fontNeverOverwritten : Obligations.FontNeverOverwritten := by
  intro s t a ha h hreset
  rcases step_cases h with ⟨rest, -, he⟩ | ⟨k, rest, -, rfl⟩ | ⟨rest, -, rfl⟩ | ⟨rom, rest, hrom, -⟩
  · exact stepEvent_readByte_font (s := s.setEvents rest) ha he
  · exact keyEvent_readByte k (s.setEvents rest) a
  · exact timerTick_readByte (s.setEvents rest) a
  · exact absurd hrom (hreset rom rest)

/-- Settles O46: the next `PC` is the address Fx55 stored to, and `exec_stRegs_readByte` gives the two bytes there. -/
theorem storeSeenByNextFetch : Obligations.StoreSeenByNextFetch := by
  intro x s t hm hx hlo hhi hi he
  have hpc : t.pc = s.i := (exec_stRegs_pc hlo hhi he).trans hi.symm
  have h0 : t.readByte s.i.toNat = s.reg 0x0#4 := exec_stRegs_readByte hm hlo hhi he (r := 0x0#4) (Nat.zero_le _)
  have h1 : t.readByte (s.i.toNat + 1) = s.reg 0x1#4 := exec_stRegs_readByte hm hlo hhi he (r := 0x1#4) hx
  refine ⟨_, fetchWord_of_range (by rw [hpc]; omega), ?_⟩
  rw [wordOfBytes_toNat, hpc, h0, h1]

end Sys2Proof.Machine
end

section
/-! The decoder and the encoder against each other and against the opcode table (spec/30_encoding.md): each undoes the
other, the words that decode to nothing are those of R98, and the first row of the table that fits a word is the row of
the instruction it decodes to. Then the step that runs what lies at `PC` (R93). -/

namespace Sys2Proof

/-! ### Decoding an encoding -/

/-- A SYS field that is none of the two of R95 makes a word that group 0 reads as SYS. -/
theorem decodeWord_sys {nnn : Imm12} (h : isSysField nnn = true) :
    decodeWord (wordOfNnn 0x0#4 nnn) = .ok (.sys nnn) := by
  obtain ⟨h0, hE⟩ : nnn ≠ 0x0E0#12 ∧ nnn ≠ 0x0EE#12 := by simpa [isSysField] using h
  have hne {c : Imm12} (hc : nnn ≠ c) : wordOfNnn 0x0#4 nnn ≠ wordOfNnn 0x0#4 c :=
    fun he => hc (by simpa using congrArg nnnField he)
  have hcls : wordOfNnn 0x0#4 nnn ≠ 0x00E0#16 := hne h0
  have hret : wordOfNnn 0x0#4 nnn ≠ 0x00EE#16 := hne hE
  simp [decodeWord, decodeGroup0, hcls, hret]

/-- The decoder reads back the fields the encoder composed, in the group of the instruction (R94). -/
theorem decodeWord_encode {i : Instr} (h : i.wf = true) : decodeWord (encode i) = .ok i := by
  cases i with
  | cls | ret => rfl
  | sys nnn => exact decodeWord_sys h
  | jp | call | seImm | sneImm | seReg | ldImm | addImm | sneReg | ldI | jpV0 | rnd | drw =>
    simp [encode, decodeWord]
  | ldReg | orReg | andReg | xorReg | addReg | subReg | shr | subnReg | shl =>
    simp [encode, decodeWord, decodeGroup8]
  | skp | sknp => simp [encode, decodeWord, decodeGroupE]
  | ldVxDt | ldVxK | ldDtVx | ldStVx | addI | ldF | ldB | stRegs | ldRegs =>
    simp [encode, decodeWord, decodeGroupF]

theorem decodeBytes_encodeBytes {i : Instr} (h : i.wf = true) (rest : List Byte) :
    decodeBytes (encodeBytes i ++ rest) = .ok (i, rest) := by
  simp [decodeBytes, encodeBytes, bytesOfWord, decodeWord_encode h]

theorem encode_injective_of_wf {i j : Instr} (hi : i.wf = true) (hj : j.wf = true) (h : encode i = encode j) : i = j :=
  Except.ok.inj <|
    calc Except.ok i = decodeWord (encode i) := (decodeWord_encode hi).symm
      _ = .ok j := by rw [h, decodeWord_encode hj]

/-! ### Encoding a decoding -/

section
variable {w : Word} {op : Nibble} {i : Instr}

theorem wordOfNibbles_eq_of_fields {n : Nibble} (hop : opField w = op) (hn : nField w = n) :
    wordOfNibbles op (xField w) (yField w) n = w := by
  rw [← hop, ← hn, wordOfNibbles_fields]

theorem wordOfXnn_eq_of_fields {nn : Byte} (hop : opField w = op) (hnn : nnField w = nn) :
    wordOfXnn op (xField w) nn = w := by
  rw [← hop, ← hnn, wordOfXnn_fields]

theorem wordOfNnn_eq_of_fields (hop : opField w = op) : wordOfNnn op (nnnField w) = w := by
  rw [← hop, wordOfNnn_fields]

theorem encode_decodeGroup0 (hop : opField w = 0x0#4) : encode (decodeGroup0 w) = w ∧ (decodeGroup0 w).wf = true := by
  have hw : wordOfNnn 0x0#4 (nnnField w) = w := wordOfNnn_eq_of_fields hop
  unfold decodeGroup0
  split_ifs with h0 hE
  · exact ⟨h0.symm, rfl⟩
  · exact ⟨hE.symm, rfl⟩
  · have hfield : nnnField w ≠ 0x0E0#12 ∧ nnnField w ≠ 0x0EE#12 :=
      ⟨fun h => h0 (by rw [← hw, h]; rfl), fun h => hE (by rw [← hw, h]; rfl)⟩
    exact ⟨hw, by simpa [Instr.wf, isSysField] using hfield⟩

theorem encode_of_decodeGroup8 (hop : opField w = 0x8#4) (h : decodeGroup8 w = .ok i) :
    encode i = w ∧ i.wf = true := by
  unfold decodeGroup8 at h
  split at h <;> cases h
  all_goals exact ⟨wordOfNibbles_eq_of_fields hop ‹_›, rfl⟩

theorem encode_of_decodeGroupE (hop : opField w = 0xE#4) (h : decodeGroupE w = .ok i) :
    encode i = w ∧ i.wf = true := by
  unfold decodeGroupE at h
  split at h <;> cases h
  all_goals exact ⟨wordOfXnn_eq_of_fields hop ‹_›, rfl⟩

theorem encode_of_decodeGroupF (hop : opField w = 0xF#4) (h : decodeGroupF w = .ok i) :
    encode i = w ∧ i.wf = true := by
  unfold decodeGroupF at h
  split at h <;> cases h
  all_goals exact ⟨wordOfXnn_eq_of_fields hop ‹_›, rfl⟩

/-- Within each group the fields the decoder read, and those it tested, make up the whole word. -/
theorem encode_of_decodeWord (h : decodeWord w = .ok i) : encode i = w ∧ i.wf = true := by
  unfold decodeWord at h
  split at h
  case h_1 hop => cases h; exact encode_decodeGroup0 hop
  case h_2 hop | h_3 hop | h_11 hop | h_12 hop => cases h; exact ⟨wordOfNnn_eq_of_fields hop, rfl⟩
  case h_4 hop | h_5 hop | h_7 hop | h_8 hop | h_13 hop => cases h; exact ⟨wordOfXnn_eq_of_fields hop rfl, rfl⟩
  case h_6 hop | h_10 hop =>
    split at h <;> cases h
    exact ⟨wordOfNibbles_eq_of_fields hop ‹_›, rfl⟩
  case h_9 hop => exact encode_of_decodeGroup8 hop h
  case h_14 hop => cases h; exact ⟨wordOfNibbles_eq_of_fields hop rfl, rfl⟩
  case h_15 hop => exact encode_of_decodeGroupE hop h
  case h_16 => exact encode_of_decodeGroupF (nibble_eq_F (by simp_all)) h

end

/-! ### The illegal words (R98) -/

/-- A nibble that group 8 does not list is one of the seven of R98. -/
theorem nibble_illegal8 {n : Nibble} (h : n ∉ [0x0#4, 0x1#4, 0x2#4, 0x3#4, 0x4#4, 0x5#4, 0x6#4, 0x7#4, 0xE#4]) :
    n ∈ [0x8#4, 0x9#4, 0xA#4, 0xB#4, 0xC#4, 0xD#4, 0xF#4] := by
  revert n
  decide

theorem decodeGroup8_illegal_iff (w : Word) : (∀ i, decodeGroup8 w ≠ .ok i) ↔
    nField w ∈ [0x8#4, 0x9#4, 0xA#4, 0xB#4, 0xC#4, 0xD#4, 0xF#4] := by
  unfold decodeGroup8
  split
  case h_10 => exact iff_of_true nofun (nibble_illegal8 (by simp_all))
  all_goals simp [*]

theorem decodeGroupE_illegal_iff (w : Word) : (∀ i, decodeGroupE w ≠ .ok i) ↔
    nnField w ≠ 0x9E#8 ∧ nnField w ≠ 0xA1#8 := by
  unfold decodeGroupE
  split
  case h_3 h9E hA1 => exact iff_of_true nofun ⟨h9E, hA1⟩
  all_goals simp [*]

theorem decodeGroupF_illegal_iff (w : Word) : (∀ i, decodeGroupF w ≠ .ok i) ↔
    nnField w ∉ [0x07#8, 0x0A#8, 0x15#8, 0x18#8, 0x1E#8, 0x29#8, 0x33#8, 0x55#8, 0x65#8] := by
  unfold decodeGroupF
  split
  case h_10 => exact iff_of_true nofun (by simp_all)
  all_goals simp [*]

/-- Settles O5: the case split of the decoder on `op`; the groups 8, E and F by their own lemmas. -/
theorem illegalWordsExactly : Obligations.IllegalWordsExactly := by
  intro w
  unfold decodeWord
  split
  case h_6 hop | h_10 hop => split <;> simp [*]
  case h_9 hop => simp [hop, decodeGroup8_illegal_iff]
  case h_15 hop => simp [hop, decodeGroupE_illegal_iff]
  case h_16 =>
    have hop : opField w = 0xF#4 := nibble_eq_F (by simp_all)
    simp [hop, decodeGroupF_illegal_iff]
  all_goals simp [*]

/-! ### The rows of the opcode table (R97) -/

theorem opField_and (v w : Word) : opField (v &&& w) = opField v &&& opField w := BitVec.extractLsb'_and
theorem xField_and (v w : Word) : xField (v &&& w) = xField v &&& xField w := BitVec.extractLsb'_and
theorem nField_and (v w : Word) : nField (v &&& w) = nField v &&& nField w := BitVec.extractLsb'_and
theorem nnField_and (v w : Word) : nnField (v &&& w) = nnField v &&& nnField w := BitVec.extractLsb'_and

theorem and_F0FF (w : Word) : w &&& 0xF0FF#16 = wordOfXnn (opField w) 0#4 (nnField w) :=
  calc w &&& 0xF0FF#16
      = wordOfXnn (opField w &&& 0xF#4) (xField w &&& 0#4) (nnField w &&& 0xFF#8) := by
        rw [← wordOfXnn_fields (w &&& 0xF0FF#16), opField_and, xField_and, nnField_and]; rfl
    _ = wordOfXnn (opField w) 0#4 (nnField w) :=
        congr (congrArg₂ wordOfXnn BitVec.and_allOnes BitVec.and_zero) BitVec.and_allOnes

theorem TableRow.matchesWord_iff (r : TableRow) (w : Word) : r.matchesWord w = true ↔ w &&& r.mask = r.bits :=
  beq_iff_eq

section
variable {w : Word} {op : Nibble} (p : String)

theorem matchesWord_F000 (hop : opField w = op) :
    (TableRow.mk p 0xF000 (wordOfNibbles op 0#4 0#4 0#4)).matchesWord w = true := by
  rw [TableRow.matchesWord_iff, ← wordOfNibbles_fields w, hop]
  exact wordOfNibbles_and_F000 ..

theorem matchesWord_F00F {n : Nibble} (hop : opField w = op) (hn : nField w = n) :
    (TableRow.mk p 0xF00F (wordOfNibbles op 0#4 0#4 n)).matchesWord w = true := by
  rw [TableRow.matchesWord_iff, ← wordOfNibbles_fields w, hop, hn]
  exact wordOfNibbles_and_F00F ..

theorem matchesWord_F0FF {nn : Byte} (hop : opField w = op) (hnn : nnField w = nn) :
    (TableRow.mk p 0xF0FF (wordOfXnn op 0#4 nn)).matchesWord w = true := by
  rw [TableRow.matchesWord_iff, ← hop, ← hnn]
  exact and_F0FF w

end

/-- The instructions stand in the order of the table. -/
theorem Instr.ctorIdx_lt_opcodeTable (i : Instr) : i.ctorIdx < opcodeTable.length := by
  cases i <;> exact Nat.le_of_ble_eq_true rfl

/-- The row of an instruction; its place in the table is that of its constructor in `Instr`. -/
def Instr.row (i : Instr) : TableRow := opcodeTable[i.ctorIdx]'i.ctorIdx_lt_opcodeTable

theorem Instr.row_mem (i : Instr) : i.row ∈ opcodeTable := List.getElem_mem _

theorem Instr.row_pattern (i : Instr) : i.row.pattern = i.pattern := by cases i <;> rfl

/-- An instruction's word fits its row: the encoder put the row's fixed fields where the mask looks. -/
theorem Instr.row_matchesWord_encode (i : Instr) : i.row.matchesWord (encode i) = true := by
  cases i with
  | cls | ret => rfl
  | sys | jp | call | ldI | jpV0 => exact matchesWord_F000 _ (opField_wordOfNnn ..)
  | seImm | sneImm | ldImm | addImm | rnd => exact matchesWord_F000 _ (opField_wordOfXnn ..)
  | drw => exact matchesWord_F000 _ (opField_wordOfNibbles ..)
  | seReg | sneReg | ldReg | orReg | andReg | xorReg | addReg | subReg | shr | subnReg | shl =>
    exact matchesWord_F00F _ (opField_wordOfNibbles ..) (nField_wordOfNibbles ..)
  | skp | sknp | ldVxDt | ldVxK | ldDtVx | ldStVx | addI | ldF | ldB | stRegs | ldRegs =>
    exact matchesWord_F0FF _ (opField_wordOfXnn ..) (nnField_wordOfXnn ..)

/-! ### The first row that fits -/

/-- The one priority rule of R97: where two rows can fit one word, the later is 0nnn and the earlier 00E0 or 00EE. -/
theorem opcodeTable_priority : opcodeTable.Pairwise fun r r' => r.bits &&& r'.mask = r'.bits &&& r.mask →
    r'.pattern = "0nnn" ∧ r.mask = 0xFFFF#16 ∧ (r.bits = encode .cls ∨ r.bits = encode .ret) := by decide

theorem TableRow.bits_and_mask_comm {r r' : TableRow} {w : Word} (h : r.matchesWord w = true)
    (h' : r'.matchesWord w = true) : r.bits &&& r'.mask = r'.bits &&& r.mask := by
  rw [matchesWord_iff] at h h'
  rw [← h, ← h', BitVec.and_assoc, BitVec.and_assoc, BitVec.and_comm r.mask]

/-- A row before an instruction's own row does not fit its word: it would be 00E0 or 00EE, and the instruction SYS. -/
theorem not_matchesWord_encode_of_before {i : Instr} (h : i.wf = true) {before after : List TableRow}
    (htable : opcodeTable = before ++ i.row :: after) {r : TableRow} (hr : r ∈ before) :
    ¬ r.matchesWord (encode i) = true := by
  intro hm
  obtain ⟨-, -, hbefore⟩ := List.pairwise_append.mp (htable ▸ opcodeTable_priority)
  obtain ⟨hpat, hmask, hbits⟩ :=
    hbefore r hr i.row List.mem_cons_self (TableRow.bits_and_mask_comm hm i.row_matchesWord_encode)
  have hw : encode i = r.bits := by
    rw [← (TableRow.matchesWord_iff _ _).mp hm, hmask]
    exact BitVec.and_allOnes.symm
  rw [i.row_pattern] at hpat
  rcases hbits with hb | hb
  all_goals
    cases encode_injective_of_wf h rfl (hw.trans hb)
    exact absurd hpat (by decide)

theorem find?_opcodeTable_encode {i : Instr} (h : i.wf = true) :
    opcodeTable.find? (fun r => r.matchesWord (encode i)) = some i.row := by
  obtain ⟨before, after, htable⟩ := List.append_of_mem i.row_mem
  refine List.find?_eq_some_iff_append.mpr ⟨i.row_matchesWord_encode, before, after, htable, fun r hr => ?_⟩
  simpa using not_matchesWord_encode_of_before h htable hr

/-! ### No row fits an illegal word -/

section
variable {r : TableRow} {w : Word} {op : Nibble}

/-- When every row of a group tests all of a field, against a value that satisfies `P`, the field of a word of the
group that fits a row satisfies `P`. -/
theorem field_of_matchesWord {k : Nat} {field : Word → BitVec k} {P : BitVec k → Prop}
    (hand : ∀ v w, field (v &&& w) = field v &&& field w)
    (hrows : ∀ r ∈ opcodeTable, op &&& opField r.mask = opField r.bits →
      field r.mask = BitVec.allOnes k ∧ P (field r.bits))
    (hr : r ∈ opcodeTable) (hop : opField w = op) (hm : r.matchesWord w = true) : P (field w) := by
  rw [TableRow.matchesWord_iff] at hm
  obtain ⟨hmask, hP⟩ := hrows r hr (by rw [← hop, ← opField_and, hm])
  rwa [← hm, hand, hmask, BitVec.and_allOnes] at hP

/-- The rows of each group of R98 test `n` or `nn` against none of the group's illegal values. -/
theorem not_matchesWord_of_illegal (h : ∀ i, decodeWord w ≠ .ok i) (hr : r ∈ opcodeTable) :
    ¬ r.matchesWord w = true := by
  intro hm
  rcases (illegalWordsExactly w).mp h with ⟨hop, hn⟩ | ⟨hop, hn⟩ | ⟨hop, hn⟩ | ⟨hop, h9E, hA1⟩ | ⟨hop, hnn⟩
  · exact hn (field_of_matchesWord (P := (· = 0x0#4)) nField_and (by decide) hr hop hm)
  · exact hn (field_of_matchesWord (P := (· = 0x0#4)) nField_and (by decide) hr hop hm)
  · exact field_of_matchesWord (P := (· ∉ [0x8#4, 0x9#4, 0xA#4, 0xB#4, 0xC#4, 0xD#4, 0xF#4])) nField_and (by decide)
      hr hop hm hn
  · have hlegal : nnField w = 0x9E#8 ∨ nnField w = 0xA1#8 :=
      field_of_matchesWord (P := fun nn => nn = 0x9E#8 ∨ nn = 0xA1#8) nnField_and (by decide) hr hop hm
    exact hlegal.elim h9E hA1
  · exact hnn (field_of_matchesWord
      (P := (· ∈ [0x07#8, 0x0A#8, 0x15#8, 0x18#8, 0x1E#8, 0x29#8, 0x33#8, 0x55#8, 0x65#8])) nnField_and (by decide)
      hr hop hm)

end

end Sys2Proof

namespace Sys2Proof.Machine

/-! ### The step that runs what lies at `PC` (R61, R93) -/

theorem stepEvent_of_decode {s : State} {w : Word} {i : Instr} (hrun : s.run = .running) (hw : fetchWord s = .ok w)
    (hd : decodeWord w = .ok i) : stepEvent s = exec i s := by
  simp [stepEvent, runInstruction, hrun, hw, hd]

theorem fetchWord_of_encodeBytes {s : State} {i : Instr} (hp : s.pc.toNat ≤ 4094)
    (hb : encodeBytes i = [s.readByte s.pc.toNat, s.readByte (s.pc.toNat + 1)]) : fetchWord s = .ok (encode i) := by
  obtain ⟨hhi, hlo⟩ : (encode i).extractLsb' 8 8 = s.readByte s.pc.toNat ∧
      (encode i).extractLsb' 0 8 = s.readByte (s.pc.toNat + 1) := by simpa [encodeBytes, bytesOfWord] using hb
  rw [fetchWord_of_range hp, ← hhi, ← hlo, wordOfBytes_bytesOfWord]

/-! ### The statements -/

/-- Settles O1: the words evaluated, and the five illegal ones by their groups. -/
theorem decodesWrittenOutWords : Obligations.DecodesWrittenOutWords := by
  refine ⟨rfl, rfl, rfl, rfl, rfl, rfl, rfl, rfl, rfl, rfl, rfl, rfl, rfl, rfl, rfl, rfl, rfl, rfl, fun w hw => ?_⟩
  fin_cases hw <;> exact (illegalWordsExactly _).mpr (by decide)

/-- Settles O2: `decodeWord_encode`, and the same through the two bytes. -/
theorem decodeOfEncode : Obligations.DecodeOfEncode :=
  fun _ h => ⟨decodeWord_encode h, decodeBytes_encodeBytes h⟩

/-- Settles O3: `encode_of_decodeWord`. -/
theorem encodeOfDecode : Obligations.EncodeOfDecode := fun _ _ => encode_of_decodeWord

/-- Settles O4: a word that decodes is the encoding of its instruction, whose own row is the first that fits; the
others fit no row. -/
theorem decoderIsOpcodeTable : Obligations.DecoderIsOpcodeTable := by
  intro w
  cases hd : decodeWord w with
  | ok i =>
    obtain ⟨rfl, hwf⟩ := encode_of_decodeWord hd
    rw [find?_opcodeTable_encode hwf, Option.map_some, i.row_pattern]
  | error e =>
    have hnone : opcodeTable.find? (fun r => r.matchesWord w) = none :=
      List.find?_eq_none.mpr fun r hr => not_matchesWord_of_illegal (by simp [hd]) hr
    rw [hnone, Option.map_none]

/-- Settles O6: the fetched word is the encoding, which decodes to the instruction, in both forms of `Step`. -/
theorem stepRunsDecodedInstruction : Obligations.StepRunsDecodedInstruction := by
  intro s i hrun hp hwf hb
  have hw : fetchWord s = .ok (encode i) := fetchWord_of_encodeBytes hp hb
  have hd : decodeWord (encode i) = .ok i := decodeWord_encode hwf
  refine ⟨fun hnil => ?_, fun rest hcons => ?_⟩
  · rw [step_nil hnil]
    exact stepEvent_of_decode hrun hw hd
  · rw [step_cons hcons]
    exact stepEvent_of_decode (s := s.setEvents rest) hrun hw hd

end Sys2Proof.Machine
end

section
/-! Control transfer and the two no-operations (spec/40_flow.md, spec/48_timer_sound.md R199): what each does to `PC` and
the call stack, and the frame of each. -/

namespace Sys2Proof.Machine

section
variable {s : State}

/-- R206, R207: an instruction that goes on to its own state with `RUN` halted raises, and changes nothing else. -/
theorem raises_of_exec {i : Instr} {f : Fault} (h : exec i s = .next (s.setRun (.halted f))) : Raises i s f :=
  ⟨_, h, rfl, s.setRun_changesOnly _⟩

/-! ### The newest entry of the stack (R29) -/

theorem State.stack_eq_nil_of_sp (h : s.sp = 0) : s.stack = [] := List.length_eq_zero_iff.mp h

theorem State.exists_stack_eq_cons (h : 0 < s.sp) : ∃ a rest, s.stack = a :: rest :=
  List.exists_cons_of_length_pos h

/-- A state whose stack is not empty is the push of its newest entry onto the others. -/
theorem State.push_rest {a : Word} {rest : List Word} (h : s.stack = a :: rest) :
    { s with stack := rest }.push a = s := by
  rw [State.push, ← h]

/-- The entry a pop takes is the one numbered `SP - 1`. -/
theorem State.stackEntry_newest {a : Word} {rest : List Word} (h : s.stack = a :: rest) :
    s.stackEntry rest.length = some a :=
  calc s.stackEntry rest.length = ({ s with stack := rest }.push a).stackEntry rest.length := by rw [State.push_rest h]
    _ = some a := State.push_stackEntry_new _ a

/-- A pop keeps the numbers of the entries below the newest. -/
theorem State.stackEntry_popped {a pc : Word} {rest : List Word} (h : s.stack = a :: rest) {k : Nat}
    (hk : k < rest.length) : { s with pc := pc, stack := rest }.stackEntry k = s.stackEntry k :=
  calc { s with pc := pc, stack := rest }.stackEntry k = ({ s with stack := rest }.push a).stackEntry k :=
      (State.push_stackEntry_old { s with stack := rest } a hk).symm
    _ = s.stackEntry k := by rw [State.push_rest h]

/-- With `SP` not `STACK_DEPTH`, a bounded or an unbounded one, the call stack has room (R30). -/
theorem State.stackFull_eq_false (h : s.cfg.stackDepth ≠ some s.sp) : s.stackFull = false :=
  Bool.eq_false_iff.mpr (mt s.stackFull_iff.mp h)

/-! ### Jump targets (R112, R114, R115) -/

/-- A jump whose target is `PC` leaves the whole state as it is (R112). -/
theorem State.setPc_self {a : Word} (h : s.pc.toNat = a.toNat) : s.setPc a = s := by
  rw [← BitVec.eq_of_toNat_eq h]
  rfl

/-- The sum of Bnnn does not wrap at 16 bits, and is not reduced to 12 (R114). -/
theorem jumpTarget_toNat (b : Byte) (nnn : Imm12) :
    (zextByte b + zextAddress nnn).toNat = b.toNat + nnn.toNat := by
  have hb := b.isLt
  have hnnn := nnn.isLt
  rw [BitVec.toNat_add, zextAddress_toNat, zextByte, BitVec.toNat_setWidth]
  omega

end

/-! ### The statements -/

/-- Settles O24: an empty stack is `execRet_nil`; otherwise the newest entry is popped, which the invariant bounds. -/
theorem returnPopsOrUnderflows : Obligations.ReturnPopsOrUnderflows := by
  refine ⟨decodeWord_encode (i := .ret) rfl, fun s => ⟨fun hsp => ?_, fun hsp => ?_⟩⟩
  · exact raises_of_exec (execRet_nil (State.stack_eq_nil_of_sp hsp))
  · obtain ⟨a, rest, hs⟩ := State.exists_stack_eq_cons hsp
    have hsp' : s.sp - 1 = rest.length := by simp [State.sp, hs]
    rw [hsp']
    exact ⟨_, execRet_cons hs, State.stackEntry_newest hs, rfl, fun _ => State.stackEntry_popped hs,
      s.pop_changesOnly a rest, fun hinv => hinv.return_addresses a (by simp [hs]), fetchWord_of_above⟩

/-- Settles O27: `stackFull` decides between the fatal error and the push of `PC + 2` followed by the jump. -/
theorem callPushesOrOverflows : Obligations.CallPushesOrOverflows := by
  refine fun nnn => ⟨decodeWord_encode (i := .call nnn) rfl, fun s => ⟨fun hfull => ?_, fun hroom => ?_⟩⟩
  · exact raises_of_exec (execCall_full (s.stackFull_iff.mpr hfull))
  · exact ⟨_, execCall_room (State.stackFull_eq_false hroom), zextAddress_toNat nnn, s.push_sp _, s.push_stackEntry_new _,
      fun _ => s.push_stackEntry_old _, (s.push_changesOnly _).andThen (State.setPc_changesOnly _ _)⟩

/-- Settles O28: the call leaves `PC + 2` on top of the old stack, and the return pops exactly that. -/
theorem callThenReturn : Obligations.CallThenReturn := by
  intro nnn s t hroom hcall
  cases (execCall_room (State.stackFull_eq_false hroom)).symm.trans hcall
  exact execRet_cons (s := (s.push (s.pc + 2#16)).setPc (zextAddress nnn)) rfl

/-- Settles O25: the words decode by `decodeWord_encode`, and both instructions are `State.advance`. -/
theorem noOperationsOnlyAdvance : Obligations.NoOperationsOnlyAdvance :=
  ⟨fun _ hcls hret => decodeWord_sys (by simp [isSysField, hcls, hret]),
    fun x => decodeWord_encode (i := .ldStVx x) rfl,
    fun s => ⟨s.advance, rfl, s.advance_changesOnly, fun _ => rfl, fun _ => rfl⟩⟩

/-- Settles O26: the jump is `State.setPc`; the target 0xFFF is past the last fetchable address. -/
theorem jumpSetsPc : Obligations.JumpSetsPc := by
  refine fun nnn => ⟨decodeWord_encode (i := .jp nnn) rfl, fun s =>
    ⟨s.setPc (zextAddress nnn), rfl, zextAddress_toNat nnn, s.setPc_changesOnly _, fun hself => ?_, fun hlast => ?_⟩⟩
  · exact State.setPc_self (hself.trans (zextAddress_toNat nnn).symm)
  · subst hlast
    exact fetchWord_of_above (s := s.setPc 0x0FFF#16) (show 4094 < (0x0FFF#16).toNat by decide)

/-- Settles O29: the jump is `State.setPc` of the unreduced sum, at most 0xFF + 0xFFF. -/
theorem jumpWithOffset : Obligations.JumpWithOffset := fun nnn =>
  ⟨decodeWord_encode (i := .jpV0 nnn) rfl, fun s =>
    ⟨s.setPc (zextByte (s.reg 0x0#4) + zextAddress nnn), rfl, jumpTarget_toNat _ nnn, jumpTarget_bounded _ nnn,
      s.setPc_changesOnly _, fetchWord_of_above⟩⟩

end Sys2Proof.Machine
end

section
/-! The skips on registers (spec/41_skip.md): the skip law's two values of `PC`, with the condition an equality or a
difference of two bytes. -/

namespace Sys2Proof.Machine

section
variable (s : State)

/-- The two values of `PC` under the skip law (R124). -/
theorem State.skipIf_pc (c : Bool) : (s.skipIf c).pc = if c then s.pc + 4#16 else s.pc + 2#16 := by
  cases c <;> rfl

/-- A skip on equality compares the unsigned values (R120, R122, R124). -/
theorem State.skipIf_beq_pc (a b : Byte) :
    (s.skipIf (a == b)).pc = if a.toNat = b.toNat then s.pc + 4#16 else s.pc + 2#16 := by
  simp only [State.skipIf_pc, beq_iff_eq, BitVec.toNat_inj]

/-- A skip on difference compares the unsigned values (R121, R123, R124). -/
theorem State.skipIf_bne_pc (a b : Byte) :
    (s.skipIf (a != b)).pc = if a.toNat = b.toNat then s.pc + 2#16 else s.pc + 4#16 := by
  simp only [State.skipIf_pc, bne_iff_ne, ite_not, BitVec.toNat_inj]

end

/-! ### The statements -/

/-- Settles O31: the words decode by `decodeWord_encode`, and each instruction is `State.skipIf` of its condition. -/
theorem registerSkips : Obligations.RegisterSkips := fun x y nn =>
  ⟨decodeWord_encode (i := .seImm x nn) rfl, decodeWord_encode (i := .sneImm x nn) rfl,
    decodeWord_encode (i := .seReg x y) rfl, decodeWord_encode (i := .sneReg x y) rfl, fun s =>
    ⟨⟨_, rfl, s.skipIf_changesOnly _, s.skipIf_beq_pc _ _⟩, ⟨_, rfl, s.skipIf_changesOnly _, s.skipIf_bne_pc _ _⟩,
      ⟨_, rfl, s.skipIf_changesOnly _, s.skipIf_beq_pc _ _⟩, ⟨_, rfl, s.skipIf_changesOnly _, s.skipIf_bne_pc _ _⟩⟩⟩

end Sys2Proof.Machine
end

section
/-! The immediates (spec/42_immediate.md): one register write, then `PC + 2`, so the flag is a register like any other. -/

namespace Sys2Proof.Machine

/-- Writing a register and going on to the next instruction leaves the byte written in that register. -/
theorem State.setReg_advance_reg_self (s : State) (x : Nibble) (b : Byte) : (s.setReg x b).advance.reg x = b :=
  s.setReg_reg_self x b

/-- 7xnn leaves the sum modulo 256 in `V[x]` (R131). -/
theorem execAddImm_reg_toNat {x : Nibble} {nn : Byte} {s t : State} (h : execAddImm x nn s = .next t) :
    (t.reg x).toNat = ((s.reg x).toNat + nn.toNat) % 256 := by
  cases h
  rw [State.setReg_advance_reg_self, BitVec.toNat_add]

/-! ### The statements -/

/-- Settles O32: 6xnn is `State.setReg` of the operand, then `State.advance`. -/
theorem loadImmediate : Obligations.LoadImmediate := fun x nn =>
  ⟨decodeWord_encode (i := .ldImm x nn) rfl, fun s =>
    ⟨_, rfl, s.setReg_advance_reg_self x nn, rfl, (s.setReg_changesOnly x nn).advance⟩⟩

/-- Settles O33: 7xnn is `State.setReg` of the wrapped sum, then `State.advance`; after 6xnn the register it adds to
holds `nn`. -/
theorem addImmediate : Obligations.AddImmediate := by
  refine fun x nn => ⟨decodeWord_encode (i := .addImm x nn) rfl, fun s =>
    ⟨⟨_, rfl, execAddImm_reg_toNat rfl, rfl, (s.setReg_changesOnly x _).advance⟩, fun nn' t u hload hadd => ?_⟩⟩
  cases hload
  calc (u.reg x).toNat = (((s.setReg x nn).advance.reg x).toNat + nn'.toNat) % 256 := execAddImm_reg_toNat hadd
    _ = (nn.toNat + nn'.toNat) % 256 := by rw [State.setReg_advance_reg_self]

end Sys2Proof.Machine
end

section
/-! The register-register ALU (spec/43_alu.md): the two orders in which a result and a flag are written (R150), the
flags as the spec reads them (R144 to R149), and the outcome of each instruction in terms of the registers before it. -/

namespace Sys2Proof.Machine

/-! ### A result and a flag written in one instruction (R150) -/

section
variable (s : State) (x : Nibble) (b : Byte) (c : Bool)

theorem State.setReg_setFlag_changesOnly :
    ChangesOnly [.reg x, .reg vf, .pc] s ((s.setReg x b).setFlag c).advance :=
  ((s.setReg_changesOnly x b).andThen (State.setFlag_changesOnly _ c)).advance

theorem State.setFlag_setReg_changesOnly :
    ChangesOnly [.reg x, .reg vf, .pc] s ((s.setFlag c).setReg x b).advance :=
  ((s.setFlag_changesOnly c).andThen (State.setReg_changesOnly _ x b)).comm.advance

theorem State.setFlag_reg_vf : (s.setFlag c).reg vf = flagByte c := s.setReg_reg_self vf _

variable {x}

theorem State.setFlag_reg_other (hx : x ≠ vf) : (s.setFlag c).reg x = s.reg x := s.setReg_reg_other _ hx.symm

/-- A result written before the flag survives it in a register other than 15. -/
theorem State.setReg_setFlag_reg (hx : x ≠ vf) : ((s.setReg x b).setFlag c).reg x = b := by
  rw [State.setFlag_reg_other _ _ hx, State.setReg_reg_self]

/-- A flag written before the result survives it when the result goes to a register other than 15. -/
theorem State.setFlag_setReg_reg_vf (hx : x ≠ vf) : ((s.setFlag c).setReg x b).reg vf = flagByte c := by
  rw [State.setReg_reg_other _ b hx, State.setFlag_reg_vf]

end

/-! ### The flags as the spec reads them -/

theorem flagByte_eq_asFlag {c : Bool} {p : Prop} [Decidable p] (h : c = true ↔ p) : flagByte c = asFlag p :=
  if_congr h rfl rfl

section
variable (a b : Byte)

/-- The signed reading of R12 is the library's. -/
theorem sint8_eq_toInt : sint8 a = a.toInt := by
  rw [sint8, BitVec.toInt_eq_toNat_cond]
  exact if_congr (by omega) rfl rfl

theorem flagByte_carryOut : flagByte (carryOut a b) = asFlag (255 < a.toNat + b.toNat) :=
  flagByte_eq_asFlag decide_eq_true_iff

theorem flagByte_signedGreater : flagByte (signedGreater a b) = asFlag (sint8 a > sint8 b) := by
  rw [sint8_eq_toInt, sint8_eq_toInt]
  exact flagByte_eq_asFlag decide_eq_true_iff

/-- Bit 7 is set from 128 on. -/
theorem getLsbD_seven_iff : a.getLsbD 7 = true ↔ 128 ≤ a.toNat := by
  rw [show a.getLsbD 7 = decide (128 ≤ a.toNat) from a.msb_eq_decide, decide_eq_true_iff]

/-- Bit 7 is the sign of the two's-complement reading (R147). -/
theorem sint8_neg_iff : sint8 a < 0 ↔ a.getLsbD 7 = true := by
  rw [sint8_eq_toInt, getLsbD_seven_iff, BitVec.toInt_neg_iff]
  omega

theorem flagByte_signBit : flagByte (signBit a) = asFlag (a.getLsbD 7 = true) := flagByte_eq_asFlag Iff.rfl

/-- A bit delivered as a flag is that binary digit of the byte. -/
theorem flagByte_getLsbD_toNat (k : Nat) : (flagByte (a.getLsbD k)).toNat = a.toNat / 2 ^ k % 2 := by
  rw [← Nat.toNat_testBit, BitVec.testBit_toNat]
  cases a.getLsbD k <;> rfl

theorem flagByte_shiftedOutRight_toNat : (flagByte (shiftedOutRight a)).toNat = a.toNat % 2 := by
  rw [shiftedOutRight, flagByte_getLsbD_toNat, Nat.pow_zero, Nat.div_one]

theorem flagByte_shiftedOutLeft_toNat : (flagByte (shiftedOutLeft a)).toNat = a.toNat / 128 := by
  have ha := a.isLt
  rw [shiftedOutLeft, flagByte_getLsbD_toNat]
  omega

/-- The wrapped difference of two bytes (R149). -/
theorem byte_sub_toNat : (a - b).toNat = (a.toNat + 256 - b.toNat) % 256 := by
  have hb := b.isLt
  rw [BitVec.toNat_sub]
  omega

end

/-! ### The outcome of each flag-writing instruction -/

section
variable {x y : Nibble} {s t : State}

theorem execAddReg_flag (h : execAddReg x y s = .next t) :
    t.reg vf = asFlag (255 < (s.reg x).toNat + (s.reg y).toNat) := by
  cases h
  exact (State.setFlag_reg_vf _ _).trans (flagByte_carryOut _ _)

theorem execAddReg_result (h : execAddReg x y s = .next t) (hx : x ≠ vf) :
    (t.reg x).toNat = ((s.reg x).toNat + (s.reg y).toNat) % 256 := by
  cases h
  rw [State.advance_reg, State.setReg_setFlag_reg _ _ _ hx, BitVec.toNat_add]

theorem execSubReg_flag (h : execSubReg x y s = .next t) (hx : x ≠ vf) :
    t.reg vf = asFlag (sint8 (s.reg x) > sint8 (s.reg y)) := by
  cases h
  exact (State.setFlag_setReg_reg_vf _ _ _ hx).trans (flagByte_signedGreater _ _)

/-- The difference is of the registers as the flag's write left them (R145). -/
theorem execSubReg_result (h : execSubReg x y s = .next t) {g : Byte}
    (hg : g = asFlag (sint8 (s.reg x) > sint8 (s.reg y))) :
    t.reg x = (if x = vf then g else s.reg x) - (if y = vf then g else s.reg y) := by
  cases h
  rw [hg, ← flagByte_signedGreater, ← State.setFlag_reg, ← State.setFlag_reg]
  exact State.setReg_advance_reg_self _ _ _

theorem execSubnReg_flag (h : execSubnReg x y s = .next t) :
    t.reg vf = asFlag ((s.reg y - s.reg x).getLsbD 7 = true) := by
  cases h
  exact (State.setFlag_reg_vf _ _).trans (flagByte_signBit _)

theorem execSubnReg_result (h : execSubnReg x y s = .next t) (hx : x ≠ vf) : t.reg x = s.reg y - s.reg x := by
  cases h
  exact State.setReg_setFlag_reg _ _ _ hx

end

section
variable (s : State) (c : Bool) (x : Nibble)

/-- 8xy6 halves the register as the flag's write left it (R146). -/
theorem State.setFlag_halve_reg :
    (((s.setFlag c).halve x).reg x).toNat = (if x = vf then flagByte c else s.reg x).toNat / 2 := by
  rw [State.halve, State.setReg_reg_self, State.setFlag_reg, BitVec.toNat_ushiftRight, Nat.shiftRight_one]

/-- 8xyE doubles the register as the flag's write left it (R148). -/
theorem State.setFlag_double_reg :
    (((s.setFlag c).double x).reg x).toNat = 2 * (if x = vf then flagByte c else s.reg x).toNat % 256 := by
  rw [State.double, State.setReg_reg_self, State.setFlag_reg, BitVec.toNat_shiftLeft, Nat.shiftLeft_eq, Nat.mul_comm]

/-- 8xyE with `x = 15` doubles the flag just written, which is 0 or 1 (R148, R150). -/
theorem State.setFlag_double_vf : ((s.setFlag c).double vf).reg vf = if c then 2#8 else 0#8 := by
  rw [State.double, State.setReg_reg_self, State.setFlag_reg_vf]
  cases c <;> rfl

end

/-! ### The statements -/

/-- Settles O34: each is `State.setReg` of the source or of the combined byte, read bit by bit, then `State.advance`. -/
theorem moveAndLogic : Obligations.MoveAndLogic := by
  refine fun x y => ⟨decodeWord_encode (i := .ldReg x y) rfl, decodeWord_encode (i := .orReg x y) rfl,
    decodeWord_encode (i := .andReg x y) rfl, decodeWord_encode (i := .xorReg x y) rfl, fun s =>
    ⟨⟨_, rfl, rfl, (s.setReg_changesOnly x _).advance, fun k _ => ?_⟩,
      ⟨_, rfl, rfl, (s.setReg_changesOnly x _).advance, fun k _ => ?_⟩,
      ⟨_, rfl, rfl, (s.setReg_changesOnly x _).advance, fun k _ => ?_⟩,
      ⟨_, rfl, rfl, (s.setReg_changesOnly x _).advance, fun k _ => ?_⟩⟩⟩
  · rw [State.setReg_advance_reg_self]
  · rw [State.setReg_advance_reg_self, BitVec.getLsbD_or]
  · rw [State.setReg_advance_reg_self, BitVec.getLsbD_and]
  · rw [State.setReg_advance_reg_self, BitVec.getLsbD_xor]

/-- Settles O35: the sum is written first, so the carry is what register 15 ends with. -/
theorem addRegisters : Obligations.AddRegisters := fun x y =>
  ⟨decodeWord_encode (i := .addReg x y) rfl, fun s =>
    ⟨_, rfl, execAddReg_result rfl, execAddReg_flag rfl, rfl, s.setReg_setFlag_changesOnly x _ _⟩⟩

/-- Settles O36: the flag is written first, and `execSubReg_result` reads the operands after it. -/
theorem subtractRegisters : Obligations.SubtractRegisters := by
  refine fun x y => ⟨decodeWord_encode (i := .subReg x y) rfl, fun s g a b hg ha hb =>
    ⟨_, rfl, ?_, fun hx => (execSubReg_flag rfl hx).trans hg.symm, rfl, s.setFlag_setReg_changesOnly x _ _⟩⟩
  rw [execSubReg_result (x := x) (y := y) rfl hg, ← ha, ← hb, byte_sub_toNat]

/-- Settles O37: the bit shifted out is written first, and the shift reads the register after it. -/
theorem shiftRight : Obligations.ShiftRight := by
  refine fun x y => ⟨decodeWord_encode (i := .shr x y) rfl, fun s g a hg ha => ?_⟩
  obtain rfl : g = flagByte (shiftedOutRight (s.reg x)) :=
    BitVec.eq_of_toNat_eq (hg.trans (flagByte_shiftedOutRight_toNat _).symm)
  refine ⟨_, fun _ => rfl, ?_, State.setFlag_setReg_reg_vf _ _ _, fun hx => ?_, rfl,
    s.setFlag_setReg_changesOnly x _ _⟩
  · rw [ha]
    exact s.setFlag_halve_reg _ x
  · subst hx
    exact s.setFlag_halve_vf _

/-- Settles O38: the difference is written first, so its sign is what register 15 ends with. -/
theorem reverseSubtract : Obligations.ReverseSubtract := by
  refine fun x y => ⟨decodeWord_encode (i := .subnReg x y) rfl, fun s diff hdiff => ?_⟩
  obtain rfl : diff = s.reg y - s.reg x := BitVec.eq_of_toNat_eq (hdiff.trans (byte_sub_toNat _ _).symm)
  refine ⟨_, rfl, execSubnReg_result rfl, ?_, rfl, s.setReg_setFlag_changesOnly x _ _⟩
  exact (State.setFlag_reg_vf _ _).trans (flagByte_eq_asFlag (sint8_neg_iff _).symm)

/-- Settles O39: the bit shifted out is written first, and the shift reads the register after it. -/
theorem shiftLeft : Obligations.ShiftLeft := by
  refine fun x y => ⟨decodeWord_encode (i := .shl x y) rfl, fun s g a hg ha => ?_⟩
  obtain rfl : g = flagByte (shiftedOutLeft (s.reg x)) :=
    BitVec.eq_of_toNat_eq (hg.trans (flagByte_shiftedOutLeft_toNat _).symm)
  have hresult := s.setFlag_double_reg (shiftedOutLeft (s.reg x)) x
  rw [← ha] at hresult
  refine ⟨_, fun _ => rfl, hresult, State.setFlag_setReg_reg_vf _ _ _, fun hx => ?_, rfl,
    s.setFlag_setReg_changesOnly x _ _⟩
  subst hx
  rw [if_pos rfl] at ha
  have hf := (s.reg vf).isLt
  exact hresult.trans (by rw [ha, hg]; omega)

/-- Settles O40: the flag and result of each instruction, with register 15 for `x`, for `y` or for both. -/
theorem flagAsOperandTable : Obligations.FlagAsOperandTable := by
  intro x y s hx hy
  refine ⟨⟨_, rfl, execAddReg_flag rfl⟩, ⟨_, rfl, execAddReg_result rfl hx, execAddReg_flag rfl⟩,
    ⟨_, rfl, ?add_flag_to_itself⟩, ⟨_, rfl, ?sub_from_flag⟩, ⟨_, rfl, execSubReg_flag rfl hx, ?sub_flag⟩,
    ⟨_, rfl, ?sub_flag_from_itself⟩, fun _ => ⟨_, rfl, s.setFlag_halve_vf _⟩, ⟨_, rfl, execSubnReg_flag rfl⟩,
    ⟨_, rfl, execSubnReg_result rfl hx, execSubnReg_flag rfl⟩, ⟨_, rfl, ?subn_flag_from_itself⟩,
    fun _ => ⟨_, rfl, s.setFlag_double_vf _⟩⟩
  case add_flag_to_itself =>
    rw [execAddReg_flag (x := vf) (y := vf) rfl]
    exact if_congr (by rw [getLsbD_seven_iff]; omega) rfl rfl
  case sub_from_flag => rw [execSubReg_result (x := vf) (y := y) rfl rfl, if_pos rfl, if_neg hy]
  case sub_flag => rw [execSubReg_result (x := x) (y := vf) rfl rfl, if_neg hx, if_pos rfl]
  case sub_flag_from_itself => rw [execSubReg_result (x := vf) (y := vf) rfl rfl, BitVec.sub_self]
  case subn_flag_from_itself =>
    rw [execSubnReg_flag (x := vf) (y := vf) rfl, BitVec.sub_self]
    rfl

end Sys2Proof.Machine
end

section
/-! The index register, loads and stores (spec/44_index_memory.md): the range checks at `I` in each of their outcomes,
what Fx33, Fx55 and Fx65 do on a range that passes, and what a load sees of a store. -/

namespace Sys2Proof.Machine

/-! ### Going on and raising -/

section
variable {s t : State} {i : Instr}

/-- R39, R207: an instruction that goes on to `PC + 2` took no fatal error, so only what the table lists for it
changed. -/
theorem exec_frame_of_pc (he : exec i s = .next t) (hpc : t.pc = s.pc + 2#16) : ChangesOnly (writes i s) s t := by
  rcases exec_frame he with h | ⟨f, rfl⟩
  · exact h
  · rw [State.setRun_pc, left_eq_add] at hpc
    exact absurd hpc (by decide)

theorem raises_of_guarded {check : Except Fault Unit} {f : Fault} {u : State} (h : exec i s = guarded check s u)
    (hc : check = .error f) : Raises i s f := by
  subst hc
  exact raises_of_exec h

end

/-! ### Range checks at `I` (R65, R163 to R165) -/

section
variable {s : State} {n : Nat}

theorem checkRange_write_font (hn : 0 < n) (h : indexAddress s < 80) :
    checkRange checkWrite (indexAddress s) n = .error (.fontWrite s.i) := by
  rw [checkRange_write_eq, if_neg (by omega), if_pos h, indexAddress, BitVec.ofNat_toNat, BitVec.setWidth_eq]

/-- The first failing address of a range that passes 4095 (R65). -/
theorem checkRange_write_above (hn : 0 < n) (hlo : 80 ≤ indexAddress s) (hhi : 4096 < indexAddress s + n) {a : Word}
    (ha : a.toNat = max s.i.toNat 4096) : checkRange checkWrite (indexAddress s) n = .error (.dataRange a) := by
  rw [checkRange_write_eq, if_neg (by omega), if_neg (by omega), if_neg (by omega), indexAddress, ← ha,
    BitVec.ofNat_toNat, BitVec.setWidth_eq]

theorem checkRange_read_above (hn : 0 < n) (hhi : 4096 < indexAddress s + n) {a : Word}
    (ha : a.toNat = max s.i.toNat 4096) : checkRange checkRead (indexAddress s) n = .error (.dataRange a) := by
  rw [checkRange_read_eq, if_neg (by omega), indexAddress, ← ha, BitVec.ofNat_toNat, BitVec.setWidth_eq]

/-- Past a block that ends in memory `I` does not wrap (R25, R164, R165). -/
theorem index_add_blockCount_toNat {x : Nibble} (h : s.i.toNat + x.toNat ≤ 4095) :
    (s.i + BitVec.ofNat 16 (blockCount x)).toNat = s.i.toNat + x.toNat + 1 := by
  rw [BitVec.toNat_add, BitVec.toNat_ofNat, blockCount]
  omega

end

/-! ### Values written to `I` and to memory -/

section
variable (b : Byte)

/-- The whole byte is multiplied, and the product does not wrap (R67, R162). -/
theorem fontAddress_toNat : (fontAddress b).toNat = b.toNat * 5 := by
  have hb := b.isLt
  rw [fontAddress, zextByte, BitVec.toNat_mul, BitVec.toNat_setWidth, BitVec.toNat_ofNat]
  omega

theorem add_zextByte_toNat (a : Word) : (a + zextByte b).toNat = (a.toNat + b.toNat) % 65536 := by
  have hb := b.isLt
  rw [zextByte, BitVec.toNat_add, BitVec.toNat_setWidth]
  omega

/-- The hundreds, tens and units each fit in a byte (R163). -/
theorem decimalDigits_getElem_toNat {k : Nat} (hk : k < 3) :
    ((decimalDigits b)[k]'hk).toNat = [b.toNat / 100, b.toNat / 10 % 10, b.toNat % 10][k] := by
  have hb := b.isLt
  match k, hk with
  | 0, _ | 1, _ | 2, _ =>
    refine Nat.mod_eq_of_lt ?_
    omega

end

/-! ### Fx33 and Fx65 on a range that passes (R163, R165) -/

section
variable {s t : State} {x r : Nibble}

theorem exec_ldB_of_storable (hlo : 80 ≤ indexAddress s) (hhi : indexAddress s ≤ 4093) :
    exec (.ldB x) s = .next (writeBytes (decimalDigits (s.reg x)) (indexAddress s) s).advance := by
  have hc : checkRange checkWrite (indexAddress s) 3 = .ok () := checkRange_write_of_storable hlo (by omega)
  exact congrArg (guarded · s _) hc

/-- Fx33 leaves the digits of `V[x]` in the three bytes at `I` (R163). -/
theorem exec_ldB_readByte_toNat (hm : Memory.wf s.cfg s.mem) (hlo : 80 ≤ indexAddress s) (hhi : indexAddress s ≤ 4093)
    (he : exec (.ldB x) s = .next t) {k : Nat} (hk : k < 3) :
    (t.readByte (indexAddress s + k)).toNat =
      [(s.reg x).toNat / 100, (s.reg x).toNat / 10 % 10, (s.reg x).toNat % 10][k] := by
  cases (exec_ldB_of_storable hlo hhi).symm.trans he
  calc ((writeBytes (decimalDigits (s.reg x)) (indexAddress s) s).readByte (indexAddress s + k)).toNat
      = ((decimalDigits (s.reg x))[k]'hk).toNat := congrArg BitVec.toNat (writeBytes_readByte_inside _ _ _ hm hk)
    _ = _ := decimalDigits_getElem_toNat _ hk

theorem exec_ldRegs_of_readable (h : s.i.toNat + x.toNat ≤ 4095) :
    exec (.ldRegs x) s = .next
      ((loadRegisters (readBytes s (indexAddress s) (blockCount x)) 0 s).bumpI (blockCount x)).advance := by
  have hc : checkRange checkRead (indexAddress s) (blockCount x) = .ok () := by
    rw [checkRange_read_eq, if_pos (.inr (Nat.succ_le_succ h))]
  exact congrArg (guarded · s _) hc

/-- Fx65 leaves in `V[r]` the byte `r` places above `I`, for every `r` up to `x`. -/
theorem exec_ldRegs_reg (h : s.i.toNat + x.toNat ≤ 4095) (he : exec (.ldRegs x) s = .next t)
    (hr : r.toNat ≤ x.toNat) : t.reg r = s.readByte (s.i.toNat + r.toNat) := by
  cases (exec_ldRegs_of_readable h).symm.trans he
  have hlt : r.toNat < blockCount x := Nat.lt_succ_of_le hr
  have hfit : 0 + (readBytes s (indexAddress s) (blockCount x)).length ≤ 16 := by
    simpa [blockCount] using x.isLt
  calc (loadRegisters (readBytes s (indexAddress s) (blockCount x)) 0 s).reg r
      = (loadRegisters (readBytes s (indexAddress s) (blockCount x)) 0 s).reg (BitVec.ofNat 4 (0 + r.toNat)) := by simp
    _ = (readBytes s (indexAddress s) (blockCount x))[r.toNat]'(by simpa using hlt) :=
        loadRegisters_reg_inside _ 0 s hfit (by simpa using hlt)
    _ = s.readByte (s.i.toNat + r.toNat) := readBytes_getElem s _ _ hlt

end

/-! ### The statements -/

/-- Settles O42: the three outcomes of the range check; `exec_ldB_readByte_toNat` reads the digits back. -/
theorem storeDecimal : Obligations.StoreDecimal := by
  refine fun x => ⟨decodeWord_encode (i := .ldB x) rfl, fun s => ⟨fun hfont => ?_, fun a hhi ha => ?_, fun hlo hhi => ?_⟩⟩
  · exact raises_of_guarded rfl (checkRange_write_font (by decide) hfont)
  · exact raises_of_guarded rfl (checkRange_write_above (by decide) (by omega) (by omega) ha)
  · have he := exec_ldB_of_storable (x := x) hlo hhi
    refine ⟨_, he, by simp, exec_frame_of_pc he (by simp), fun hm => ?_⟩
    have hdigit := fun k => exec_ldB_readByte_toNat hm hlo hhi he (k := k)
    exact ⟨hdigit 0 (by decide), hdigit 1 (by decide), hdigit 2 (by decide)⟩

/-- Settles O43: the three outcomes of the range check; `exec_stRegs_readByte` reads the registers back. -/
theorem storeRegisters : Obligations.StoreRegisters := by
  refine fun x => ⟨decodeWord_encode (i := .stRegs x) rfl, fun s =>
    ⟨fun hfont => ?_, fun a hlo hhi ha => ?_, fun hlo hhi => ?_⟩⟩
  · exact raises_of_guarded rfl (checkRange_write_font (Nat.succ_pos _) hfont)
  · exact raises_of_guarded rfl (checkRange_write_above (Nat.succ_pos _) hlo (Nat.succ_lt_succ hhi) ha)
  · have he := exec_stRegs_of_storable hlo hhi
    have hpc := exec_stRegs_pc hlo hhi he
    exact ⟨_, he, hpc, by simpa using index_add_blockCount_toNat hhi, exec_frame_of_pc he hpc,
      fun hm _ hr => exec_stRegs_readByte hm hlo hhi he hr⟩

/-- Settles O44: the two outcomes of the range check; the registers above `x` are outside the frame. The name stands
under `IndexMemory` because `loadRegisters` is the model's block load. -/
theorem IndexMemory.loadRegisters : Obligations.LoadRegisters := by
  refine fun x => ⟨decodeWord_encode (i := .ldRegs x) rfl, fun s => ⟨fun a hhi ha => ?_, fun hhi => ?_⟩⟩
  · exact raises_of_guarded rfl (checkRange_read_above (Nat.succ_pos _) (Nat.succ_lt_succ hhi) ha)
  · have he := exec_ldRegs_of_readable hhi
    have hframe := exec_frame_of_pc he (by simp)
    refine ⟨_, he, by simp, by simpa using index_add_blockCount_toNat hhi, fun _ => exec_ldRegs_reg hhi he,
      fun r hr => hframe (.reg r) fun hmem => ?_, hframe⟩
    have hle : r.toNat ≤ x.toNat := reg_mem_regsUpTo (by simpa [writes] using hmem)
    omega

/-- Settles O45 from O43 and O44: with `I` set back, the load reads the bytes the store left, whatever the registers
hold. -/
theorem storeThenLoadRestores : Obligations.StoreThenLoadRestores := by
  intro x s t v' hm hlo hhi hst
  obtain ⟨-, hstore⟩ := storeRegisters x
  obtain ⟨-, -, hstored⟩ := hstore s
  obtain ⟨t', hst', -, hti, -, hbytes⟩ := hstored hlo hhi
  cases hst'.symm.trans hst
  obtain ⟨-, hload⟩ := IndexMemory.loadRegisters x
  obtain ⟨-, hloaded⟩ := hload { t with v := v', i := s.i }
  obtain ⟨u, hld, -, hui, hregs, -, hframe⟩ := hloaded hhi
  have hback : ChangesOnly [.index] { t with v := v' } { t with v := v', i := s.i } := State.setI_changesOnly _ s.i
  exact ⟨u, hld, fun r hr => (hregs r hr).trans (hbytes hm r hr), BitVec.eq_of_toNat_eq (hui.trans hti.symm),
    (hback.mono (by simp)).trans hframe⟩

/-- Settles O41: each instruction is `State.setI` of its value, then `State.advance`. -/
theorem indexRegisterWrites : Obligations.IndexRegisterWrites := fun x nnn =>
  ⟨decodeWord_encode (i := .ldI nnn) rfl, decodeWord_encode (i := .addI x) rfl, decodeWord_encode (i := .ldF x) rfl,
    fun s => ⟨⟨_, rfl, zextAddress_toNat nnn, rfl, (s.setI_changesOnly _).advance⟩,
      ⟨_, rfl, add_zextByte_toNat _ s.i, rfl, (s.setI_changesOnly _).advance⟩,
      ⟨_, rfl, fontAddress_toNat _, rfl, (s.setI_changesOnly _).advance⟩⟩⟩

end Sys2Proof.Machine
end

section
/-! The random number instruction (spec/45_random.md): one call of `Rand()`, then the register write, then `PC + 2`. -/

namespace Sys2Proof.Machine

/-- The host's next supplied value is the one `Rand()` returns (log entry 2). -/
@[simp] theorem State.rand_rands_cons (s : State) (r : Byte) (rs : List Byte) :
    ({ s with rands := r :: rs } : State).rand = r := rfl

/-- Every Cxnn has the one outcome, in which `nn` does not occur (R170, R172). -/
theorem exec_rnd (x : Nibble) (nn : Byte) (s : State) :
    exec (.rnd x nn) s = .next (s.drawn.setReg x s.rand).advance := rfl

/-- The call of `Rand()` comes first; the register write and `State.advance` add their own parts (R39). -/
theorem State.drawn_setReg_advance_changesOnly (s : State) (x : Nibble) (b : Byte) :
    ChangesOnly [.reg x, .pc, .rands, .draws] s (s.drawn.setReg x b).advance :=
  ((s.drawn_changesOnly.andThen (s.drawn.setReg_changesOnly x b)).advance).mono (by simp)

/-! ### The statements -/

/-- Settles O47: by `exec_rnd` one next state serves every `nn`, and the register read back is the value drawn. -/
theorem randomByte : Obligations.RandomByte := fun x nn =>
  ⟨decodeWord_encode (i := .rnd x nn) rfl, fun s =>
    ⟨_, fun nn' => exec_rnd x nn' s, s.drawn.setReg_advance_reg_self x s.rand, rfl,
      s.drawn_setReg_advance_changesOnly x s.rand⟩⟩

/-- Settles O48: with `r` put before the host's values, the call of `Rand()` returns `r` and takes it off again. -/
theorem everyRandomByteOccurs : Obligations.EveryRandomByteOccurs := by
  intro x nn r s
  refine ⟨_, exec_rnd x nn _, ?_, ?_⟩
  · rw [State.setReg_advance_reg_self, State.rand_rands_cons]
  · simp

end Sys2Proof.Machine
end

section
/-! The display instructions (spec/46_display.md): the pixels a sprite has a 1 over and its flag as the statements read
them (R177 to R180), what a Dxyn that raises no fatal error leaves, and that a second one undoes the first (R181). -/

namespace Sys2Proof.Machine

/-! ### The flag byte (R23) -/

theorem flagByte_eq_one_iff (c : Bool) : flagByte c = 1#8 ↔ c = true := by
  cases c <;> decide

/-! ### The pixels under a sprite (R178 to R180) -/

section
variable {byte : Byte} {px py cx cy i : Nat}

/-- Pixel index `i` of a row that starts at column `px` lies over column `px + i`, wrapping (R178, R179). -/
theorem rowCovers_column (hi : i < 8) (hc : (px + i) % 64 = cx % 64) (hr : py % 32 = cy % 32) :
    rowCovers byte px py cx cy = spriteBit byte i := by
  have hcol : columnIndex px (cx % 64) = i := (columnIndex_eq_iff px cx i hi).mpr hc
  simp [rowCovers, hcol, hi, hr]

theorem rowCovers_iff (hx : cx < 64) (hy : cy < 32) : rowCovers byte px py cx cy = true ↔
    ∃ i < 8, py % 32 = cy ∧ (px + i) % 64 = cx ∧ spriteBit byte i = true := by
  constructor
  · intro h
    simp only [rowCovers, Bool.and_eq_true, decide_eq_true_eq] at h
    obtain ⟨hrow, hi, hbit⟩ := h
    have hcol := (columnIndex_eq_iff px cx _ hi).mp rfl
    exact ⟨_, hi, hrow.trans (Nat.mod_eq_of_lt hy), hcol.trans (Nat.mod_eq_of_lt hx), hbit⟩
  · rintro ⟨i, hi, rfl, rfl, hbit⟩
    exact (rowCovers_column hi (Nat.mod_mod _ _).symm (Nat.mod_mod _ _).symm).trans hbit

end

section
variable {s t : State} {n px py cx cy : Nat}

/-- The bytes at `I` cover a pixel exactly when the statements say so, at most 32 of them being drawn. -/
theorem spriteCovers_readBytes_iff (hn : n ≤ 32) (hx : cx < 64) (hy : cy < 32) :
    spriteCovers (readBytes s (indexAddress s) n) px py cx cy = true ↔ Covers s n px py cx cy := by
  rw [spriteCovers_iff _ _ _ _ _ (by rwa [readBytes_length])]
  simp only [readBytes_length, Covers]
  refine exists_congr fun r => ?_
  rw [← exists_prop]
  refine exists_congr fun hr => ?_
  rw [readBytes_getElem s _ _ hr, rowCovers_iff hx hy]
  rfl

/-- The flag of a sprite drawn from `I`: some pixel is lit and under a sprite bit 1. -/
theorem drawRows_readBytes_flag (hn : n ≤ 32) (f : FrameBuffer) :
    (drawRows (readBytes s (indexAddress s) n) px py f false).2 = true ↔
      ∃ cx < 64, ∃ cy < 32, pixel f cx cy = true ∧ Covers s n px py cx cy := by
  rw [drawRows_flag _ _ _ _ _ (by rwa [readBytes_length]), or_iff_right Bool.false_ne_true]
  constructor
  · rintro ⟨r, hr, i, hi, hbit, hlit⟩
    rw [readBytes_length] at hr
    rw [readBytes_getElem s _ _ hr] at hbit
    exact ⟨_, Nat.mod_lt _ (by decide), _, Nat.mod_lt _ (by decide), (pixel_wrap f _ _).trans hlit,
      r, hr, i, hi, rfl, rfl, hbit⟩
  · rintro ⟨_, -, _, -, hlit, r, hr, i, hi, rfl, rfl, hbit⟩
    refine ⟨r, by rwa [readBytes_length], i, hi, ?_, (pixel_wrap f _ _).symm.trans hlit⟩
    rwa [readBytes_getElem s _ _ hr]

/-- A sprite depends on `I` and on memory only. -/
theorem covers_congr (hi : t.i = s.i) (hm : ∀ a, t.readByte a = s.readByte a) :
    Covers t n px py cx cy ↔ Covers s n px py cx cy := by
  simp only [Covers, hi, hm]

end

/-! ### Dxyn on a range that passes (R180) -/

section
variable {s t : State} {x y n : Nibble} (h : n.toNat = 0 ∨ s.i.toNat + n.toNat ≤ 4096)
include h

theorem exec_drw_of_readable :
    exec (.drw x y n) s = .next (s.blit
      (drawRows (readBytes s (indexAddress s) n.toNat) (s.reg x).toNat (s.reg y).toNat s.fb false)).advance := by
  have hc : checkRange checkRead (indexAddress s) n.toNat = .ok () := by
    rw [checkRange_read_eq]
    exact if_pos h
  exact congrArg (guarded · s _) hc

theorem exec_drw_frame (he : exec (.drw x y n) s = .next t) :
    ChangesOnly [.fb, .reg vf, .pc] s t := by
  cases (exec_drw_of_readable h).symm.trans he
  exact (s.blit_changesOnly _).advance

/-- Each pixel is lit afterwards when it was lit or under a sprite bit 1, and not both (R177). -/
theorem exec_drw_pixel (he : exec (.drw x y n) s = .next t) {cx cy : Nat} (hx : cx < 64) (hy : cy < 32) :
    pixel t.fb cx cy = true ↔
      (pixel s.fb cx cy = true ↔ ¬ Covers s n.toNat (s.reg x).toNat (s.reg y).toNat cx cy) := by
  cases (exec_drw_of_readable h).symm.trans he
  rw [← spriteCovers_readBytes_iff (by omega) hx hy, State.advance_fb, State.blit, State.setFlag_fb, State.setFb_fb,
    drawRows_pixel]
  cases pixel s.fb cx cy <;> simp

/-- Register 15 receives the flag last, so it holds the flag also when it was a coordinate (R180). -/
theorem exec_drw_flag (he : exec (.drw x y n) s = .next t) :
    ∃ c, t.reg vf = flagByte c ∧ (c = true ↔ ∃ cx < 64, ∃ cy < 32, pixel s.fb cx cy = true ∧
      Covers s n.toNat (s.reg x).toNat (s.reg y).toNat cx cy) := by
  cases (exec_drw_of_readable h).symm.trans he
  exact ⟨_, State.setFlag_reg_vf _ _, drawRows_readBytes_flag (by omega) s.fb⟩

end

/-! ### The statements -/

/-- Settles O49: the buffer is `clearBuffer`, and the flag is outside the frame. -/
theorem clearDisplay : Obligations.ClearDisplay :=
  ⟨decodeWord_encode (i := .cls) rfl, fun s =>
    ⟨_, rfl, pixel_clearBuffer, rfl, (s.setFb_changesOnly clearBuffer).advance⟩⟩

/-- Settles O50: the two outcomes of the range check; `exec_drw_pixel` and `exec_drw_flag` say what a draw leaves. -/
theorem drawSprite : Obligations.DrawSprite := by
  refine fun x y n => ⟨decodeWord_encode (i := .drw x y n) rfl, fun s => ⟨fun a hn hhi ha => ?_, fun h => ?_⟩⟩
  · exact raises_of_guarded rfl (checkRange_read_above hn hhi ha)
  · have he := exec_drw_of_readable (x := x) (y := y) h
    obtain ⟨c, hflag, hc⟩ := exec_drw_flag h he
    exact ⟨_, he, rfl, exec_drw_frame h he, fun _ hx _ hy => exec_drw_pixel h he hx hy,
      fun hit => hflag.trans (if_pos (hc.mpr hit)), fun miss => hflag.trans (if_neg (mt hc.mp miss))⟩

/-- Settles O51: the first draw leaves `I` and memory, so the second covers the same pixels, and exclusive or undoes
itself. -/
theorem drawTwiceRestores : Obligations.DrawTwiceRestores := by
  refine ⟨fun x y n s t u h ht hx hy hu => ?_, fun byte py f i hi => ?_⟩
  · have hframe := exec_drw_frame h ht
    have hindex : t.i = s.i := hframe .index (by simp)
    have hcovers (cx cy : Nat) : Covers t n.toNat (s.reg x).toNat (s.reg y).toNat cx cy ↔
        Covers s n.toNat (s.reg x).toNat (s.reg y).toNat cx cy :=
      covers_congr hindex fun a => hframe (.byte a) (by simp)
    have h' : n.toNat = 0 ∨ t.i.toNat + n.toNat ≤ 4096 := by rwa [hindex]
    refine ⟨frame_ext fun cx cy hcx hcy => ?_, ?_⟩
    · have hfirst := exec_drw_pixel h ht hcx hcy
      have hsecond := exec_drw_pixel h' hu hcx hcy
      rw [hx, hy, hcovers] at hsecond
      rw [Bool.eq_iff_iff, hsecond, hfirst]
      by_cases hcover : Covers s n.toNat (s.reg x).toNat (s.reg y).toNat cx cy <;> simp [hcover]
    · obtain ⟨c, hflag, hc⟩ := exec_drw_flag h' hu
      rw [hflag, flagByte_eq_one_iff, hc, hx, hy]
      simp only [hcovers]
  · have hcol : (60 + i) % 64 = (if i < 4 then 60 + i else i - 4) % 64 := by
      split <;> omega
    rw [drawByte_pixel, rowCovers_column hi hcol rfl]
    rfl

end Sys2Proof.Machine
end

section
/-! The fatal errors of a `Step` (spec/60_exceptions.md R200 to R212): an instruction is its own check, then its result;
so a `Step` of a running machine raises the one fatal error of `StepFault`, changing `RUN` alone, or runs the
instruction at `PC`. What the run state does under every event follows. -/

namespace Sys2Proof.Machine

/-! ### An instruction's own check (R65, R202, R204) -/

/-- The check of the instruction's own rule, as `exec` makes it. -/
def ownCheck (i : Instr) (s : State) : Except Fault Unit :=
  match i with
  | .ret => if s.sp = 0 then .error (.stackUnderflow s.pc) else .ok ()
  | .call _ => if s.stackFull then .error (.stackOverflow s.pc) else .ok ()
  | .drw _ _ n => checkRange checkRead (indexAddress s) n.toNat
  | .ldB _ => checkRange checkWrite (indexAddress s) 3
  | .stRegs x => checkRange checkWrite (indexAddress s) (blockCount x)
  | .ldRegs x => checkRange checkRead (indexAddress s) (blockCount x)
  | _ => .ok ()

section
variable {s : State} {n : Nat} {f : Fault}

/-- The first failing address of a range from `I` that passes 4095 (R65, R204). -/
theorem error_dataRange_eq_iff :
    (.error (.dataRange (BitVec.ofNat 16 (max (indexAddress s) 4096))) : Except Fault Unit) = .error f ↔
      ∃ a, f = .dataRange a ∧ a.toNat = max s.i.toNat 4096 := by
  have hmax : (BitVec.ofNat 16 (max (indexAddress s) 4096)).toNat = max s.i.toNat 4096 := by
    have := s.i.isLt
    rw [BitVec.toNat_ofNat, indexAddress]
    omega
  constructor
  · rintro ⟨⟩
    exact ⟨_, rfl, hmax⟩
  · rintro ⟨a, rfl, ha⟩
    rw [BitVec.eq_of_toNat_eq (hmax.trans ha.symm)]

theorem checkRange_read_eq_error_iff : checkRange checkRead (indexAddress s) n = .error f ↔
    0 < n ∧ 4096 < s.i.toNat + n ∧ ∃ a, f = .dataRange a ∧ a.toNat = max s.i.toNat 4096 := by
  rw [checkRange_read_eq]
  split
  · rename_i h
    rw [indexAddress] at h
    exact ⟨nofun, fun ⟨hn, hhi, _⟩ => by omega⟩
  · rename_i h
    rw [indexAddress] at h
    rw [error_dataRange_eq_iff]
    exact ⟨fun ha => ⟨by omega, by omega, ha⟩, fun ⟨_, _, ha⟩ => ha⟩

theorem checkRange_write_eq_error_iff (hn : 0 < n) : checkRange checkWrite (indexAddress s) n = .error f ↔
    s.i.toNat < 80 ∧ f = .fontWrite s.i ∨
      80 ≤ s.i.toNat ∧ 4096 < s.i.toNat + n ∧ ∃ a, f = .dataRange a ∧ a.toNat = max s.i.toNat 4096 := by
  by_cases hlo : s.i.toNat < 80
  · rw [checkRange_write_font hn hlo, Except.error.injEq, eq_comm]
    exact ⟨fun h => .inl ⟨hlo, h⟩, fun h => h.elim And.right fun ⟨h80, _⟩ => by omega⟩
  · rw [checkRange_write_eq, if_neg (by omega), if_neg (show ¬ indexAddress s < 80 from hlo)]
    split
    · rename_i hhi
      rw [indexAddress] at hhi
      exact ⟨nofun, fun h => by omega⟩
    · rename_i hhi
      rw [indexAddress] at hhi
      rw [error_dataRange_eq_iff]
      exact ⟨fun ha => .inr ⟨by omega, by omega, ha⟩, fun h => h.elim (fun h => absurd h.1 hlo) fun ⟨_, _, ha⟩ => ha⟩

end

/-- `OwnFault` is the failure of the check: at most one fatal error, and of the six instructions that have a check. -/
theorem ownCheck_eq_error_iff {i : Instr} {s : State} {f : Fault} : ownCheck i s = .error f ↔ OwnFault i s f := by
  cases i with
  | ret =>
    by_cases hsp : s.sp = 0
    · cases f <;> simp [ownCheck, OwnFault, hsp, eq_comm]
    · cases f <;> simp [ownCheck, OwnFault, hsp]
  | call nnn =>
    cases hfull : s.stackFull with
    | true =>
      have hdepth := s.stackFull_iff.mp hfull
      cases f <;> simp [ownCheck, OwnFault, hfull, hdepth, eq_comm]
    | false =>
      have hdepth : s.cfg.stackDepth ≠ some s.sp := mt s.stackFull_iff.mpr (by simp [hfull])
      cases f <;> simp [ownCheck, OwnFault, hfull, hdepth]
  | drw x y n =>
    rw [ownCheck, checkRange_read_eq_error_iff]
    cases f with
    | dataRange a => simp [OwnFault]; omega
    | _ => simp [OwnFault]
  | ldB x =>
    rw [ownCheck, checkRange_write_eq_error_iff (by decide)]
    cases f with
    | dataRange a => simp [OwnFault]; omega
    | fontWrite a => simp [OwnFault, and_comm]
    | _ => simp [OwnFault]
  | stRegs x =>
    rw [ownCheck, blockCount, checkRange_write_eq_error_iff (Nat.succ_pos _)]
    cases f with
    | dataRange a => simp [OwnFault]; omega
    | fontWrite a => simp [OwnFault, and_comm]
    | _ => simp [OwnFault]
  | ldRegs x =>
    rw [ownCheck, checkRange_read_eq_error_iff, blockCount]
    cases f with
    | dataRange a => simp [OwnFault]; omega
    | _ => simp [OwnFault]
  | _ => cases f <;> simp [ownCheck, OwnFault]

theorem OwnFault.unique {i : Instr} {s : State} {f g : Fault} (hf : OwnFault i s f) (hg : OwnFault i s g) : f = g :=
  Except.error.inj ((ownCheck_eq_error_iff.mpr hf).symm.trans (ownCheck_eq_error_iff.mpr hg))

/-- An instruction with a check of its own is the one its word decodes to: the two ill-formed terms are SYS (R95). -/
theorem OwnFault.wf {i : Instr} {s : State} {f : Fault} (h : OwnFault i s f) : i.wf = true := by
  rw [← ownCheck_eq_error_iff] at h
  cases i with
  | sys => cases h
  | _ => rfl

/-! ### What an instruction answers -/

/-- The run state an instruction that raises nothing goes on to: Fx0A waits, the others leave it (R188, R210). -/
def runAfter (i : Instr) (r : RunState) : RunState :=
  match i with
  | .ldVxK x => .waitingForKey x
  | _ => r

theorem runAfter_ne_halted (i : Instr) (f : Fault) : runAfter i .running ≠ .halted f := by
  cases i <;> nofun

theorem runAfter_eq_waiting_iff (i : Instr) (x : Nibble) : runAfter i .running = .waitingForKey x ↔ i = .ldVxK x := by
  cases i <;> simp [runAfter]

theorem runAfter_eq_running_iff (i : Instr) : runAfter i .running = .running ↔ ∀ x, i ≠ .ldVxK x := by
  cases i <;> simp [runAfter]

/-- Every instruction is its own check and then a result, which is all it can do to `RUN` (R65, R206). -/
theorem exec_eq_guarded (i : Instr) (s : State) :
    ∃ t, exec i s = guarded (ownCheck i s) s t ∧ t.run = runAfter i s.run := by
  cases i with
  | ret =>
    cases hs : s.stack with
    | nil => exact ⟨s, by simp [exec, execRet_nil hs, ownCheck, State.sp, hs], rfl⟩
    | cons a rest =>
      exact ⟨{ s with pc := a, stack := rest }, by simp [exec, execRet_cons hs, ownCheck, State.sp, hs], rfl⟩
  | call nnn =>
    refine ⟨(s.push (s.pc + 2#16)).setPc (zextAddress nnn), ?_, rfl⟩
    cases hfull : s.stackFull with
    | true => simp [exec, execCall_full hfull, ownCheck, hfull]
    | false => simp [exec, execCall_room hfull, ownCheck, hfull]
  | seImm | sneImm | seReg | sneReg | skp | sknp => exact ⟨_, rfl, by rw [State.skipIf_eq]; rfl⟩
  | ldB | stRegs | ldRegs => exact ⟨_, rfl, by simp [runAfter]⟩
  | _ => exact ⟨_, rfl, rfl⟩

/-- All that an instruction can do: raise its own fatal error, or raise none and go on. -/
theorem exec_cases (i : Instr) (s : State) :
    (∃ f, OwnFault i s f ∧ exec i s = .next (s.setRun (.halted f))) ∨
    (∀ f, ¬ OwnFault i s f) ∧ ∃ t, exec i s = .next t ∧ t.run = runAfter i s.run := by
  obtain ⟨t, he, hrun⟩ := exec_eq_guarded i s
  simp only [← ownCheck_eq_error_iff, he]
  cases ownCheck i s with
  | error f => exact .inl ⟨f, rfl, rfl⟩
  | ok => exact .inr ⟨nofun, t, rfl, hrun⟩

/-! ### The `Step` of a running machine (R93, R206 to R208) -/

section
variable {s t : State} {w : Word} {i : Instr} {f : Fault}

/-- A word that encodes an instruction with a check of its own decodes to that instruction. -/
theorem exists_encode_ownFault_iff : (∃ i, fetchWord s = .ok (encode i) ∧ OwnFault i s f) ↔
    ∃ w, fetchWord s = .ok w ∧ ∃ i, decodeWord w = .ok i ∧ OwnFault i s f := by
  constructor
  · rintro ⟨i, hw, hown⟩
    exact ⟨_, hw, i, decodeWord_encode hown.wf, hown⟩
  · rintro ⟨w, hw, i, hd, hown⟩
    exact ⟨i, (encode_of_decodeWord hd).1.symm ▸ hw, hown⟩

/-- The fatal errors of a `Step` in the order of R208: at the fetch, at the decoder, in the instruction. -/
theorem stepFault_iff : StepFault f s ↔
    4094 < s.pc.toNat ∧ f = .fetchRange s.pc ∨
    ∃ w, fetchWord s = .ok w ∧ ((∀ i, decodeWord w ≠ .ok i) ∧ f = .illegalOpcode w ∨
      ∃ i, decodeWord w = .ok i ∧ OwnFault i s f) := by
  have own := exists_encode_ownFault_iff (s := s) (f := f)
  cases f with
  | fetchRange p => simp [StepFault, OwnFault, and_comm]
  | illegalOpcode v => simp [StepFault, OwnFault]
  | _ => simpa [StepFault] using own

theorem stepEvent_of_not_running (h : s.run ≠ .running) : stepEvent s = .next s := by
  cases hr : s.run with
  | running => exact absurd hr h
  | _ => simp [stepEvent, hr]

theorem stepEvent_of_above (hrun : s.run = .running) (h : 4094 < s.pc.toNat) :
    stepEvent s = .next (s.setRun (.halted (.fetchRange s.pc))) := by
  simp [stepEvent, hrun, runInstruction, fetchWord_of_above h, raiseFatal]

theorem stepEvent_of_illegal (hrun : s.run = .running) (hw : fetchWord s = .ok w) (hd : ∀ i, decodeWord w ≠ .ok i) :
    stepEvent s = .next (s.setRun (.halted (.illegalOpcode w))) := by
  cases he : decodeWord w with
  | ok i => exact absurd he (hd i)
  | error e => simp [stepEvent, hrun, runInstruction, hw, he, raiseFatal]

theorem aboutToRun_iff_of_decode (hrun : s.run = .running) (hw : fetchWord s = .ok w) (hd : decodeWord w = .ok i)
    {j : Instr} : AboutToRun s j ↔ j = i := by
  simp [AboutToRun, hrun, hw, hd, eq_comm]

/-- All that a `Step` of a running machine can do: take the one fatal error raised, which no Fx0A raises, or, with none
raised, run the instruction at `PC`. -/
theorem stepEvent_of_running (hrun : s.run = .running) :
    (∃ f, (∀ g, StepFault g s ↔ g = f) ∧ (∀ x, ¬ AboutToRun s (.ldVxK x)) ∧
      stepEvent s = .next (s.setRun (.halted f))) ∨
    ∃ i t, (∀ g, ¬ StepFault g s) ∧ (∀ j, AboutToRun s j ↔ j = i) ∧
      stepEvent s = .next t ∧ t.run = runAfter i .running := by
  cases hw : fetchWord s with
  | error f =>
    obtain ⟨hp, rfl⟩ := fetchWord_error hw
    exact .inl ⟨_, by simp [stepFault_iff, hw, hp], by simp [AboutToRun, hw], stepEvent_of_above hrun hp⟩
  | ok w =>
    have hp := (fetchWord_ok hw).1
    cases hd : decodeWord w with
    | error e =>
      exact .inl ⟨_, by simp [stepFault_iff, hw, hp, hd], by simp [AboutToRun, hw, hd],
        stepEvent_of_illegal hrun hw (by simp [hd])⟩
    | ok i =>
      have hfault (g : Fault) : StepFault g s ↔ OwnFault i s g := by simp [stepFault_iff, hw, hp, hd]
      have habout (j : Instr) := aboutToRun_iff_of_decode hrun hw hd (j := j)
      rcases exec_cases i s with ⟨f, hown, he⟩ | ⟨hnone, t, he, ht⟩
      · refine .inl ⟨f, fun g => ?_, fun x => ?_, (stepEvent_of_decode hrun hw hd).trans he⟩
        · rw [hfault]
          exact ⟨fun hg => hg.unique hown, fun hg => hg ▸ hown⟩
        · rw [habout]
          rintro rfl
          cases ownCheck_eq_error_iff.mpr hown
      · exact .inr ⟨i, t, by simpa [hfault] using hnone, habout, (stepEvent_of_decode hrun hw hd).trans he, hrun ▸ ht⟩

/-- Every `Step` answers a next state. -/
theorem stepEvent_total (s : State) : ∃ t, stepEvent s = .next t := by
  by_cases hrun : s.run = .running
  · rcases stepEvent_of_running hrun with ⟨f, -, -, he⟩ | ⟨i, t, -, -, he, -⟩
    · exact ⟨_, he⟩
    · exact ⟨t, he⟩
  · exact ⟨s, stepEvent_of_not_running hrun⟩

/-- A `Step` that ends a run in a fatal error has raised it and changed `RUN` alone (R206, R207). -/
theorem stepEvent_halted (hrun : s.run = .running) (he : stepEvent s = .next t) (ht : t.run = .halted f) :
    StepFault f s ∧ t = s.setRun (.halted f) := by
  rcases stepEvent_of_running hrun with ⟨g, hg, -, he'⟩ | ⟨i, t', -, -, he', ht'⟩
  · cases he'.symm.trans he
    cases ht
    exact ⟨(hg f).mpr rfl, rfl⟩
  · cases he'.symm.trans he
    exact absurd (ht'.symm.trans ht) (runAfter_ne_halted i f)

/-- The last row of the table of R210, in both directions. -/
theorem stepEvent_running_transitions (hrun : s.run = .running) (he : stepEvent s = .next t) :
    (∀ f, t.run = .halted f ↔ StepFault f s) ∧ (∀ x, t.run = .waitingForKey x ↔ AboutToRun s (.ldVxK x)) ∧
    (t.run = .running ↔ ∃ i, AboutToRun s i ∧ (∀ x, i ≠ .ldVxK x) ∧ ∀ f, ¬ StepFault f s) := by
  rcases stepEvent_of_running hrun with ⟨g, hg, hwait, he'⟩ | ⟨i, t', hnone, hi, he', ht⟩
  · cases he'.symm.trans he
    simp [hg, hwait, eq_comm]
  · cases he'.symm.trans he
    simp [ht, hnone, hi, runAfter_ne_halted, runAfter_eq_waiting_iff, runAfter_eq_running_iff, eq_comm (b := i)]

/-! ### The event list (log entry 1) -/

theorem TakesStep.exists_setEvents {u : State} (h : TakesStep s u) :
    ∃ es, u = s.setEvents es ∧ step s = stepEvent (s.setEvents es) := by
  rcases h with ⟨hnil, rfl⟩ | ⟨rest, hcons, rfl⟩
  · have hs : u.setEvents [] = u := hnil ▸ rfl
    exact ⟨[], hs.symm, by rw [hs]; exact step_nil hnil⟩
  · exact ⟨rest, rfl, step_cons hcons⟩

theorem stepFault_setEvents (es : List HostEvent) : StepFault f (s.setEvents es) ↔ StepFault f s :=
  ⟨stepFault_congr rfl rfl rfl rfl fun _ => rfl, stepFault_congr rfl rfl rfl rfl fun _ => rfl⟩

theorem aboutToRun_setEvents (es : List HostEvent) : AboutToRun (s.setEvents es) i ↔ AboutToRun s i := Iff.rfl

/-! ### What keeps a recorded fatal error true (R200, R209) -/

theorem HaltReportTrue.congr (h : HaltReportTrue s) (hr : t.run = s.run) (hp : t.pc = s.pc) (hi : t.i = s.i)
    (hs : t.stack = s.stack) (hc : t.cfg = s.cfg) (hm : ∀ a, t.readByte a = s.readByte a) : HaltReportTrue t :=
  fun f hf => faultReport_congr hp hi hs hc hm (h f (hr ▸ hf))

theorem stepEvent_keeps_haltReport (h : HaltReportTrue s) (he : stepEvent s = .next t) : HaltReportTrue t := by
  by_cases hrun : s.run = .running
  · intro f hf
    obtain ⟨hfault, rfl⟩ := stepEvent_halted hrun he hf
    exact faultReport_congr rfl rfl rfl rfl (fun _ => rfl) hfault.faultReport
  · cases (stepEvent_of_not_running hrun).symm.trans he
    exact h

/-- A key that ends a wait leaves a running machine, which reports nothing; else the latch alone changes (R189). -/
theorem keyEvent_keeps_haltReport (h : HaltReportTrue s) (k : Option Nibble) : HaltReportTrue (keyEvent k s) := by
  unfold keyEvent
  split
  · exact nofun
  · exact h.congr rfl rfl rfl rfl rfl fun _ => rfl

theorem timerTick_keeps_haltReport (h : HaltReportTrue s) : HaltReportTrue (timerTick s) := by
  unfold timerTick
  split
  · exact h
  · exact h.congr rfl rfl rfl rfl rfl fun _ => rfl

end

/-! ### The statements -/

/-- Settles O12: the case split of `step_cases`, each event by its own lemma; a running machine halts only by raising. -/
theorem haltReportKept : Obligations.HaltReportKept := by
  intro s t h hstep
  have taken (rest : List HostEvent) : HaltReportTrue (s.setEvents rest) :=
    h.congr rfl rfl rfl rfl rfl fun _ => rfl
  rcases step_cases hstep with ⟨rest, -, he⟩ | ⟨k, rest, -, rfl⟩ | ⟨rest, -, rfl⟩ | ⟨rom, rest, -, rfl⟩
  · exact stepEvent_keeps_haltReport (taken rest) he
  · exact keyEvent_keeps_haltReport (taken rest) k
  · exact timerTick_keeps_haltReport (taken rest)
  · exact resetWith_haltReportTrue rom _

/-- Settles O7: the three stages of `Step`, on the word at `PC` read as a number. -/
theorem stepStagesInOrder : Obligations.StepStagesInOrder := by
  intro s u htake hrun
  obtain ⟨es, rfl, hstep⟩ := htake.exists_setEvents
  have hrun' : (s.setEvents es).run = .running := hrun
  rw [hstep]
  refine ⟨fun hp => ⟨_, stepEvent_of_above hrun' hp, rfl, State.setRun_changesOnly _ _⟩, fun hp w hw => ?_⟩
  have hfetch : fetchWord (s.setEvents es) = .ok w := by
    rw [BitVec.eq_of_toNat_eq (hw.trans (wordOfBytes_toNat _ _).symm)]
    exact fetchWord_of_range hp
  exact ⟨fun hd => ⟨_, stepEvent_of_illegal hrun' hfetch hd, rfl, State.setRun_changesOnly _ _⟩,
    fun i hd => stepEvent_of_decode hrun' hfetch hd⟩

/-- Settles O8: `stepEvent_of_not_running`. -/
theorem stepIdleUnlessRunning : Obligations.StepIdleUnlessRunning := by
  intro s u htake hrun
  obtain ⟨es, rfl, hstep⟩ := htake.exists_setEvents
  rw [hstep]
  exact stepEvent_of_not_running hrun

/-- Settles O10: the events other than `Step` are functions of the state, and `Step` answers by `stepEvent_total`. -/
theorem everyStepAnswersNext : Obligations.EveryStepAnswersNext := by
  intro s
  unfold step cycle
  cases nextEvent s with
  | step => exact stepEvent_total _
  | keyEvent | timerTick | reset => exact ⟨_, rfl⟩

/-- Settles O11: `stepEvent_halted`. -/
theorem fatalErrorsArePrecise : Obligations.FatalErrorsArePrecise := by
  intro s u t f htake hrun hstep ht
  obtain ⟨es, rfl, hs⟩ := htake.exists_setEvents
  obtain ⟨-, rfl⟩ := stepEvent_halted (s := s.setEvents es) hrun (hs.symm.trans hstep) ht
  rfl

/-- Settles O13: a halted machine neither runs nor waits, so `Step`, a key event and a tick leave `RUN` alone. -/
theorem haltedUntilReset : Obligations.HaltedUntilReset := by
  intro s t f hrun hstep
  rcases step_cases hstep with ⟨rest, -, he⟩ | ⟨k, rest, -, rfl⟩ | ⟨rest, -, rfl⟩ | ⟨rom, rest, hrom, -⟩
  · have hidle : stepEvent (s.setEvents rest) = .next (s.setEvents rest) := stepEvent_of_not_running (by simp [hrun])
    cases hidle.symm.trans he
    exact .inl hrun
  · rw [keyEvent_latch (.inl (by simp [hrun]))]
    exact .inl hrun
  · have hkept : (timerTick (s.setEvents rest)).run = s.run := timerTick_frame _ .run (by simp)
    exact .inl (hkept.trans hrun)
  · exact .inr ⟨rom, rest, hrom⟩

/-- Settles O14: each event's row of the table; `stepEvent_running_transitions` is the row of a running machine. -/
theorem runStateTransitions : Obligations.RunStateTransitions := by
  intro s t hstep
  rcases step_cases hstep with ⟨rest, hev, he⟩ | ⟨k, rest, hk, rfl⟩ | ⟨rest, htick, rfl⟩ | ⟨rom, rest, hrom, rfl⟩
  · have hhead : s.events.headD .step = .step := by
      rcases hev with ⟨hnil, -⟩ | hcons
      · simp [hnil]
      · simp [hcons]
    rw [hhead]
    cases hrun : s.run with
    | running =>
      simpa only [stepFault_setEvents, aboutToRun_setEvents] using stepEvent_running_transitions (s := s.setEvents rest) hrun he
    | waitingForKey | halted =>
      cases (stepEvent_of_not_running (s := s.setEvents rest) (by simp [hrun])).symm.trans he
      exact hrun
  · rw [hk]
    cases hrun : s.run with
    | running | halted =>
      rw [keyEvent_latch (.inl (by simp [hrun]))]
      cases k <;> exact hrun
    | waitingForKey x =>
      cases k with
      | none =>
        rw [keyEvent_latch (.inr rfl)]
        exact hrun
      | some c =>
        rw [keyEvent_resume (s := s.setEvents rest) c hrun]
        rfl
  · rw [htick]
    exact timerTick_frame (s.setEvents rest) .run (by simp)
  · rw [hrom]
    rfl

/-- Settles O30: the instruction run is the jump to where it lies, which `State.setPc_self` says changes nothing. -/
theorem endedStepChangesNothing : Obligations.EndedStepChangesNothing := by
  rintro s u htake ⟨hrun, nnn, hw, hself⟩
  obtain ⟨es, rfl, hstep⟩ := htake.exists_setEvents
  have hjump : (s.setEvents es).setPc (zextAddress nnn) = s.setEvents es :=
    State.setPc_self (congrArg BitVec.toNat hself.symm)
  calc step s = stepEvent (s.setEvents es) := hstep
    _ = exec (.jp nnn) (s.setEvents es) := stepEvent_of_decode hrun hw (decodeWord_encode rfl)
    _ = .next (s.setEvents es) := congrArg Host.Outcome.next hjump

end Sys2Proof.Machine
end

section
/-! Input (spec/47_input.md): the latch as the key skips read it, the wait of Fx0A, and the key event that ends it. -/

namespace Sys2Proof.Machine

/-! ### The latch and the wait -/

section
variable {s : State}

/-- A key code widened to a byte keeps its value (R185, R189). -/
theorem keyByte_toNat (k : Nibble) : (k.setWidth 8).toNat = k.toNat := BitVec.toNat_setWidth_of_le (by decide)

/-- All eight bits of the byte are compared with the latched code (R185). -/
theorem isPressed_iff (c : Byte) : isPressed s c = true ↔ ∃ k, s.key = some k ∧ k.toNat = c.toNat := by
  unfold isPressed
  cases s.key with
  | none => simp
  | some k =>
    rw [beq_iff_eq, ← BitVec.toNat_inj, keyByte_toNat]
    simp

/-- The code of a key fits in the register it is put in (R189). -/
theorem State.resume_reg_toNat (x k : Nibble) : ((s.resume x k).reg x).toNat = k.toNat := by
  simp only [State.resume, State.setRun_reg, State.advance_reg, State.setReg_reg_self, keyByte_toNat]

theorem State.resume_changesOnly (x k : Nibble) : ChangesOnly [.reg x, .pc, .run] s (s.resume x k) :=
  (s.setReg_changesOnly x _).advance.andThen (State.setRun_changesOnly _ _)

end

/-! ### The statements -/

/-- Settles O52: each is `State.skipIf` of `isPressed`, which `isPressed_iff` reads. -/
theorem keySkips : Obligations.KeySkips := by
  refine fun x => ⟨decodeWord_encode (i := .skp x) rfl, decodeWord_encode (i := .sknp x) rfl, fun s =>
    ⟨_, _, rfl, rfl, s.skipIf_changesOnly _, s.skipIf_changesOnly _, fun hkey => ?_, fun hkey => ?_⟩⟩
  · simp [State.skipIf_pc, (isPressed_iff _).mpr hkey]
  · have hnot : isPressed s (s.reg x) = false := Bool.eq_false_iff.mpr (mt (isPressed_iff _).mp hkey)
    simp [State.skipIf_pc, hnot]

/-- Settles O53: the wait is `State.setRun`; `keyEvent_resume` ends it, and nothing else does. -/
theorem waitForKey : Obligations.WaitForKey := by
  refine fun x => ⟨decodeWord_encode (i := .ldVxK x) rfl, fun s => ?_⟩
  have hwait : (s.setRun (.waitingForKey x)).run = .waitingForKey x := rfl
  refine ⟨s.setRun (.waitingForKey x), rfl, hwait, s.setRun_changesOnly _, fun k => ?_, ?_, ?_, ?_⟩
  · rw [keyEvent_resume k hwait]
    exact ⟨rfl, rfl, State.resume_reg_toNat x k⟩
  · rw [keyEvent_latch (.inr rfl)]
    exact hwait
  · exact timerTick_frame (s.setRun (.waitingForKey x)) .run (by simp)
  · exact stepEvent_of_not_running (by simp)

/-- Settles O54: `keyEvent_resume` in a wait that a key ends, and `keyEvent_latch` otherwise. -/
theorem keyEventRule : Obligations.KeyEventRule := by
  refine fun s k => ⟨?_, fun x c hwait hk => ?_, fun hlatch => ?_⟩
  · unfold keyEvent
    split <;> rfl
  · subst hk
    rw [keyEvent_resume c hwait]
    exact ⟨State.resume_reg_toNat x c, rfl, rfl, (s.setKey_changesOnly _).andThen (State.resume_changesOnly x c)⟩
  · rw [keyEvent_latch hlatch]
    exact s.setKey_changesOnly k

end Sys2Proof.Machine
end

section
/-! The timer (spec/48_timer_sound.md): Fx07 and Fx15, which alone can raise it, and the ticks that count it down. -/

namespace Sys2Proof.Machine

theorem dt_mem_writes {i : Instr} {s : State} (h : Part.dt ∈ writes i s) : ∃ x, i = .ldDtVx x := by
  cases i with
  | ldDtVx x => exact ⟨x, rfl⟩
  | _ => simp [writes, bytesFrom, regsUpTo] at h

theorem keyEvent_dt (k : Option Nibble) (s : State) : (keyEvent k s).dt = s.dt := by
  obtain ⟨x, hx⟩ := keyEvent_frame k s
  exact hx .dt (by simp)

/-- A step that takes a tick off the list changes the list and the timer alone (R198). -/
theorem step_timerTick {s : State} {rest : List HostEvent} (h : s.events = .timerTick :: rest) :
    ∃ t, step s = .next t ∧ t.dt.toNat = s.dt.toNat - 1 ∧ t.events = rest ∧ ChangesOnly [.dt, .events] s t :=
  ⟨_, step_cons h, timerTick_dt _, timerTick_frame _ .events (by simp),
    ((s.setEvents_changesOnly rest).andThen (timerTick_frame _)).comm⟩

/-! ### The statements -/

/-- Settles O55: the two instructions are a register write and a timer write, each followed by `State.advance`. -/
theorem timerReadAndLoad : Obligations.TimerReadAndLoad := fun x =>
  ⟨decodeWord_encode (i := .ldVxDt x) rfl, decodeWord_encode (i := .ldDtVx x) rfl, fun s =>
    ⟨⟨_, rfl, s.setReg_advance_reg_self x _, rfl, (s.setReg_changesOnly x _).advance⟩,
      ⟨_, rfl, rfl, rfl, (s.setDt_changesOnly _).advance⟩⟩⟩

/-- Settles O56: a tick is `timerTick_dt`; of the steps that could raise the timer only an instruction that the table
of R39 lists for it is left. -/
theorem timerOnlyCountsDown : Obligations.TimerOnlyCountsDown := by
  refine ⟨fun s => ⟨timerTick_dt s, timerTick_frame s⟩, fun s t hstep hlt => ?_⟩
  rcases step_cases hstep with ⟨rest, -, he⟩ | ⟨k, rest, -, rfl⟩ | ⟨rest, -, rfl⟩ | ⟨rom, rest, -, rfl⟩
  · have hchg : ¬ Unchanged .dt (s.setEvents rest) t := fun h => hlt.ne (congrArg BitVec.toNat h).symm
    obtain ⟨i, hi, hp⟩ := mem_writes_of_stepEvent_changed (p := .dt) he nofun hchg
    obtain ⟨x, rfl⟩ := dt_mem_writes hp
    exact ⟨x, hi⟩
  · rw [keyEvent_dt] at hlt
    exact absurd hlt (lt_irrefl _)
  · rw [timerTick_dt] at hlt
    exact absurd hlt (Nat.sub_le _ _).not_gt
  · exact absurd hlt (Nat.not_lt_zero _)

/-- Settles O57, by induction on the number of ticks. -/
theorem timerAfterTicks : Obligations.TimerAfterTicks := by
  intro m
  induction m with
  | zero => exact fun s rest hev => ⟨s, rfl, rfl, hev, ChangesOnly.refl s _⟩
  | succ m ih =>
    intro s rest hev
    obtain ⟨t, hstep, hdt, hrest, hframe⟩ := step_timerTick (rest := List.replicate m .timerTick ++ rest) hev
    obtain ⟨u, hrun, hdt', hrest', hframe'⟩ := ih t rest hrest
    exact ⟨u, (core_run_succ m hstep).trans hrun, by omega, hrest', hframe.trans hframe'⟩

end Sys2Proof.Machine
end

section
/-! `Reset` (spec/70_reset_and_hazards.md R240 to R244): what every part of the state is after it. -/

namespace Sys2Proof.Machine

section
variable (rom : List Byte) (s : State)

theorem resetWith_reg (r : Nibble) : (resetWith rom s).reg r = 0#8 := by
  simp [resetWith, State.reg]

/-- Memory after `Reset`: the image where it lies, and elsewhere the font and zeros (R240 to R242). -/
theorem resetWith_readByte (a : Nat) : (resetWith rom s).readByte a =
    if h : rom.length ≤ 3584 ∧ 512 ≤ a ∧ a < 512 + rom.length then rom[a - 512]'(by omega) else unlisted s.cfg a :=
  romMemory_read s.cfg rom a

/-- Outside the image memory reads as unlisted (R240). -/
theorem resetWith_readByte_outside {a : Nat} (h : ¬ (rom.length ≤ 3584 ∧ 512 ≤ a ∧ a < 512 + rom.length)) :
    (resetWith rom s).readByte a = unlisted s.cfg a := by
  rw [resetWith_readByte, dif_neg h]

/-- From address 80 on, and outside the image, memory reads 0 (R240, R242). -/
theorem resetWith_readByte_zero {a : Nat} (ha : 80 ≤ a)
    (h : ¬ (rom.length ≤ 3584 ∧ 512 ≤ a ∧ a < 512 + rom.length)) : (resetWith rom s).readByte a = 0#8 := by
  rw [resetWith_readByte_outside rom s h, unlisted_above s.cfg ha]

/-- The font lies below the image (R240). -/
theorem resetWith_readByte_font {a : Nat} (ha : a < 80) : (resetWith rom s).readByte a = s.cfg.fontRom[a] := by
  rw [resetWith_readByte_outside rom s (by omega), unlisted, dif_pos ha]

theorem resetWith_readByte_image {j : Nat} (hlen : rom.length ≤ 3584) (hj : j < rom.length) :
    (resetWith rom s).readByte (0x200 + j) = rom[j] := by
  rw [resetWith_readByte, dif_pos ⟨hlen, by omega, by omega⟩]
  simp

theorem romRun_of_fits (h : rom.length ≤ 3584) : romRun rom = .running := if_neg (Nat.not_lt.mpr h)

theorem romRun_of_too_long (h : 3584 < rom.length) :
    romRun rom = .halted (.loadRange (BitVec.ofNat 16 (min rom.length 65535))) := if_pos h

end

/-! ### The statements -/

/-- Settles O58: the fields of `resetWith`, and memory by the three `resetWith_readByte` lemmas. -/
theorem resetRebuildsState : Obligations.ResetRebuildsState := by
  refine fun rom s => ⟨resetWith_reg rom s, rfl, rfl, rfl, pixel_clearBuffer, rfl, rfl,
    fun a ha => resetWith_readByte_font rom s ha, fun a hlo hhi => resetWith_readByte_zero rom s hlo (by omega),
    fun hlen => ⟨romRun_of_fits rom hlen, fun j hj => resetWith_readByte_image rom s hlen hj,
      fun a ha => resetWith_readByte_zero rom s (by omega) (by omega)⟩,
    fun hlen => ⟨⟨_, ?_, romRun_of_too_long rom hlen⟩, fun a ha => resetWith_readByte_zero rom s (by omega) (by omega)⟩⟩
  rw [BitVec.toNat_ofNat]
  omega

/-- Settles O59: every field of `resetWith` but the model's own is a function of the image and the parameters. -/
theorem resetForgetsEverything : Obligations.ResetForgetsEverything := by
  intro rom s s' hcfg
  have hmem : (resetWith rom s).mem = (resetWith rom s').mem := congrArg (romMemory · rom) hcfg
  refine ⟨fun p hp => ?_, hmem⟩
  cases p with
  | cfg => exact hcfg.symm
  | byte a => exact congrArg₂ (Memory.read · · a) hcfg.symm hmem.symm
  | events | rands | draws => simp at hp
  | _ => rfl

end Sys2Proof.Machine
end
